-- ==== Sys2Proof/Word.lean ====
section
/-! DEFINITION. The words of the block: command words, halfwords, bytes and colours (R8, R110, R288). -/

namespace Sys2Proof

/-- A command word: every command is one 64-bit word (R110). -/
abbrev Word := BitVec 64

/-- A halfword: every word of the block's memories and registers has 16 bits (R8). -/
abbrev Half := BitVec 16

/-- One byte lane of a halfword (R91), one `pri_alp` trace byte (R252), one colour channel (R288). -/
abbrev Byte := BitVec 8

/-- A colour, a triple of 8-bit channels (R288). -/
structure Rgb where
  r : Byte
  g : Byte
  b : Byte
deriving DecidableEq, Repr

end Sys2Proof
end

