-- ==== Sys2Proof/Config.lean ====
section
/-! DEFINITION. What an implementation fixes: the layer names (R12, R246) and the parameters of R7.
The parameters are a record of plain data that State carries unchanged (log entry 1), so a claim about every
state is a claim about every parameter value, and a claim can name the one it assumes, as R7 asks. -/

namespace Sys2Proof

/-- The nine layers of the compositor (R246): the pivot slot, the sprite groups SP0..SP3 and the playfield
slots PF0..PF3. -/
inductive Layer where
  | piv
  | sp (g : Fin 4)
  | pf (p : Fin 4)
deriving DecidableEq, Repr

/-- The layer kinds, the source's closed variant set {Pivot, SpriteGroup, Playfield} (R12). -/
inductive LayerKind where
  | pivot
  | spriteGroup
  | playfield
deriving DecidableEq, Repr

/-- `P_SPR_OVERDRAW` (R7, R217): which of two sprites of one group survives at a pixel. -/
inductive Overdraw where
  | laterWins
  | earlierWins
deriving DecidableEq, Repr

/-- `P_CLIP_COMBINE` (R7, R243): how a layer's enabled clip planes combine. -/
inductive ClipCombine where
  | all
  | any
deriving DecidableEq, Repr

/-- Which covered pixels of nonzero pen set a usage bit. The spec has both readings, and they differ only under
`P_SPR_OVERDRAW = EARLIER_WINS` where an earlier sprite keeps the pixel (log entry 11). -/
inductive UsageRule where
  /-- The words of R41 and R220: the pixels the descriptor writes. -/
  | written
  /-- The pseudocode of R217: all of them. -/
  | covered
deriving DecidableEq, Repr

/-- The implementation parameters of R7, and the one of log entry 11. A function parameter of finite domain is a table of its values in
canonical form (keys strictly rising, no entry equal to what an unlisted key gives), so that every function of
that domain is one such table; `Machine/TileDecoder.lean` and `Machine/Blender.lean` give the keys (log entry 14). -/
structure Params where
  /-- `P_EXTENDED`: the playfield addressing mode, OPEN. -/
  extended : Bool
  /-- `P_SCREEN_W`, 1..512. -/
  screenW : Nat
  /-- `P_VIS_H`, 1..256, OPEN. -/
  visH : Nat
  /-- `P_TIE_ORDER`: a permutation of the nine layers, the first drawn lowest. -/
  tieOrder : List Layer
  /-- `P_SPR_OVERDRAW`. -/
  sprOverdraw : Overdraw
  /-- The reading of the usage masks: the model's own parameter (log entry 11, DESIGN CHOICE). -/
  usageRule : UsageRule
  /-- `P_SPR_6BPP`. -/
  spr6bpp : Bool
  /-- `P_CLIP_COMBINE`. -/
  clipCombine : ClipCombine
  /-- `P_CHAR_PACKING`: where it differs from R171's default, the halfword of the element (0..15) and the
  nibble of it (0 = bits 3:0) that hold a pixel. -/
  charPacking : List (Nat × (BitVec 4 × BitVec 2))
  /-- `P_PF_LO`, OPEN (ROM contents); an unlisted pixel is 0. -/
  pfLo : List (Nat × BitVec 4)
  /-- `P_PF_HI`, OPEN (ROM contents); an unlisted pixel is 0. -/
  pfHi : List (Nat × BitVec 6)
  /-- `P_SPR_LO`, OPEN (ROM contents); an unlisted pixel is 0. -/
  sprLo : List (Nat × BitVec 4)
  /-- `P_SPR_HI`, OPEN (ROM contents); an unlisted pixel is 0. -/
  sprHi : List (Nat × BitVec 6)
  /-- `P_PALETTE`, OPEN (externally owned); an unlisted entry is (0, 0, 0). -/
  palette : List (Nat × Rgb)
  /-- `P_BLEND_KS`, in eighths, 0..8. -/
  blendKs : Nat
  /-- `P_BLEND_KD`, in eighths, 0..8. -/
  blendKd : Nat
deriving DecidableEq, Repr

/-- The nine layers in the default tie order of R271. -/
def Layer.all : List Layer :=
  [.piv, .sp 0, .sp 1, .sp 2, .sp 3, .pf 0, .pf 1, .pf 2, .pf 3]

/-- The kind of a layer (R246). -/
def Layer.kind : Layer → LayerKind
  | .piv => .pivot
  | .sp _ => .spriteGroup
  | .pf _ => .playfield

/-- The defaults of R7. The OPEN parameters have no value in the spec: the values here are those State.reset
carries (log entry 2, DESIGN CHOICE). -/
def Params.defaults : Params where
  extended := false
  screenW := 320
  visH := 256
  tieOrder := Layer.all
  sprOverdraw := .laterWins
  usageRule := .written
  spr6bpp := false
  clipCombine := .all
  charPacking := []
  pfLo := []
  pfHi := []
  sprLo := []
  sprHi := []
  palette := []
  blendKs := 4
  blendKd := 4

/-- What a byte of RAM that nothing has listed reads as (log entry 3, DESIGN CHOICE: R33 leaves the power-on
contents to the draw `P_INIT_RAM`). -/
def unlistedByte : Byte := 0#8

end Sys2Proof
end

