-- ==== Sys2Proof/Syntax.lean ====
section
/-! DEFINITION. The commands of the block, one constructor per row of spec/opcode_table.json (R114). -/

namespace Sys2Proof

/-- The 20 commands of R114. `addr` is the halfword offset, `idx` the bank index and `y` the line number of the
32-bit `ADDR` field, each an unscaled unsigned number (R111); `data` is `DATA`, stored as is; `ln` is the byte-lane
field `LN`, bit 1 for bits 15:8 and bit 0 for bits 7:0 (R91). -/
inductive Instr where
  | nop
  | wrspr (addr : Nat) (data : Half) (ln : BitVec 2)
  | wrpf (addr : Nat) (data : Half) (ln : BitVec 2)
  | wrtxt (addr : Nat) (data : Half) (ln : BitVec 2)
  | wrchr (addr : Nat) (data : Half) (ln : BitVec 2)
  | wrlin (addr : Nat) (data : Half) (ln : BitVec 2)
  | wrpiv (addr : Nat) (data : Half) (ln : BitVec 2)
  | rdspr (addr : Nat)
  | rdpf (addr : Nat)
  | rdtxt (addr : Nat)
  | rdchr (addr : Nat)
  | rdlin (addr : Nat)
  | rdpiv (addr : Nat)
  | cwr0 (idx : Nat) (data : Half) (ln : BitVec 2)
  | cwr1 (idx : Nat) (data : Half) (ln : BitVec 2)
  | crd0 (idx : Nat)
  | crd1 (idx : Nat)
  | frame
  | line (y : Nat)
  | reset
deriving DecidableEq, Repr

end Sys2Proof
end

