-- ==== Sys2Proof/WellFormed.lean ====
section
/-! DEFINITION. Which instructions have an encoding: the operand of `ADDR` fits its 32 bits (R110, R111).
`DATA` and `LN` fit by their types. The value checks that come after decoding (R114) are not checks of the
encoding: `Sys2Proof/Safety.lean` has them as `Instr.inRange`. -/

namespace Sys2Proof

/-- The operand fits the 32-bit `ADDR` field (R111). -/
def fitsAddr (a : Nat) : Bool := decide (a < 2 ^ 32)

/-- Every operand fits the field that encodes it (R110). -/
def Instr.wf : Instr → Bool
  | .nop => true
  | .wrspr a _ _ => fitsAddr a
  | .wrpf a _ _ => fitsAddr a
  | .wrtxt a _ _ => fitsAddr a
  | .wrchr a _ _ => fitsAddr a
  | .wrlin a _ _ => fitsAddr a
  | .wrpiv a _ _ => fitsAddr a
  | .rdspr a => fitsAddr a
  | .rdpf a => fitsAddr a
  | .rdtxt a => fitsAddr a
  | .rdchr a => fitsAddr a
  | .rdlin a => fitsAddr a
  | .rdpiv a => fitsAddr a
  | .cwr0 i _ _ => fitsAddr i
  | .cwr1 i _ _ => fitsAddr i
  | .crd0 i => fitsAddr i
  | .crd1 i => fitsAddr i
  | .frame => true
  | .line y => fitsAddr y
  | .reset => true

end Sys2Proof
end

