-- ==== Sys2Proof/Decode.lean ====
section
/-! DEFINITION. The decoder and the encoder of command words (R110..R116).
Decoding is R114's table read as it stands: a word spells the row whose mask and match it meets; a word that meets
no row is illegal (R115). -/

namespace Sys2Proof

/-- The fields of a command word (R110). -/
def opField (w : Word) : BitVec 4 := w.extractLsb' 60 4
def selField (w : Word) : BitVec 4 := w.extractLsb' 56 4
def rsvField (w : Word) : BitVec 6 := w.extractLsb' 50 6
def lnField (w : Word) : BitVec 2 := w.extractLsb' 48 2
def addrField (w : Word) : BitVec 32 := w.extractLsb' 16 32
def dataField (w : Word) : Half := w.extractLsb' 0 16

/-- A row of the table of R114. `make` builds the instruction from `ADDR`, `DATA` and `LN`. -/
structure OpRow where
  mnemonic : String
  pattern : Word
  mask : Word
  make : Nat → Half → BitVec 2 → Instr

/-- The mask of a row with no operands. -/
def maskNone : Word := 0xFFFFFFFFFFFFFFFF#64
/-- The mask of a row with the operands ADDR, DATA and LN. -/
def maskWrite : Word := 0xFFFC000000000000#64
/-- The mask of a row with the operand ADDR alone. -/
def maskAddr : Word := 0xFFFF00000000FFFF#64

/-- The table of R114, in its order. -/
def opcodeTable : List OpRow :=
  [ ⟨"NOP", 0x0000000000000000#64, maskNone, fun _ _ _ => .nop⟩,
    ⟨"WRSPR", 0x1000000000000000#64, maskWrite, .wrspr⟩,
    ⟨"WRPF", 0x1100000000000000#64, maskWrite, .wrpf⟩,
    ⟨"WRTXT", 0x1200000000000000#64, maskWrite, .wrtxt⟩,
    ⟨"WRCHR", 0x1300000000000000#64, maskWrite, .wrchr⟩,
    ⟨"WRLIN", 0x1400000000000000#64, maskWrite, .wrlin⟩,
    ⟨"WRPIV", 0x1500000000000000#64, maskWrite, .wrpiv⟩,
    ⟨"RDSPR", 0x2000000000000000#64, maskAddr, fun a _ _ => .rdspr a⟩,
    ⟨"RDPF", 0x2100000000000000#64, maskAddr, fun a _ _ => .rdpf a⟩,
    ⟨"RDTXT", 0x2200000000000000#64, maskAddr, fun a _ _ => .rdtxt a⟩,
    ⟨"RDCHR", 0x2300000000000000#64, maskAddr, fun a _ _ => .rdchr a⟩,
    ⟨"RDLIN", 0x2400000000000000#64, maskAddr, fun a _ _ => .rdlin a⟩,
    ⟨"RDPIV", 0x2500000000000000#64, maskAddr, fun a _ _ => .rdpiv a⟩,
    ⟨"CWR0", 0x3000000000000000#64, maskWrite, .cwr0⟩,
    ⟨"CWR1", 0x3100000000000000#64, maskWrite, .cwr1⟩,
    ⟨"CRD0", 0x4000000000000000#64, maskAddr, fun a _ _ => .crd0 a⟩,
    ⟨"CRD1", 0x4100000000000000#64, maskAddr, fun a _ _ => .crd1 a⟩,
    ⟨"FRAME", 0x5000000000000000#64, maskNone, fun _ _ _ => .frame⟩,
    ⟨"LINE", 0x6000000000000000#64, maskAddr, fun a _ _ => .line a⟩,
    ⟨"RESET", 0x7000000000000000#64, maskNone, fun _ _ _ => .reset⟩ ]

/-- The word spells the row: `word & mask = match` (R114). -/
def OpRow.spells (r : OpRow) (w : Word) : Bool := (w &&& r.mask) == r.pattern

/-- Why the decoder rejects a word. The one reason is R115's. -/
inductive DecodeReject where
  /-- The word matches no row of R114: a reserved `OP` or `SEL`, nonzero `RSV` bits, or a nonzero field that the
  command does not use. -/
  | illegalEncoding
deriving DecidableEq, Repr

/-- Decode a command word by the table of R114, or reject it as R115 says. -/
def decode (w : Word) : Except DecodeReject Instr :=
  match opcodeTable.find? (·.spells w) with
  | some r => .ok (r.make (addrField w).toNat (dataField w) (lnField w))
  | none => .error .illegalEncoding

/-- A command word from its fields, `RSV` 0 (R110). -/
def pack (op sel : BitVec 4) (ln : BitVec 2) (addr : Nat) (data : Half) : Word :=
  op ++ sel ++ 0#6 ++ ln ++ BitVec.ofNat 32 addr ++ data

/-- The word of an instruction, written from R112, R113 and R117. -/
def encode : Instr → Word
  | .nop => pack 0x0 0 0 0 0
  | .wrspr a v ln => pack 0x1 0 ln a v
  | .wrpf a v ln => pack 0x1 1 ln a v
  | .wrtxt a v ln => pack 0x1 2 ln a v
  | .wrchr a v ln => pack 0x1 3 ln a v
  | .wrlin a v ln => pack 0x1 4 ln a v
  | .wrpiv a v ln => pack 0x1 5 ln a v
  | .rdspr a => pack 0x2 0 0 a 0
  | .rdpf a => pack 0x2 1 0 a 0
  | .rdtxt a => pack 0x2 2 0 a 0
  | .rdchr a => pack 0x2 3 0 a 0
  | .rdlin a => pack 0x2 4 0 a 0
  | .rdpiv a => pack 0x2 5 0 a 0
  | .cwr0 i v ln => pack 0x3 0 ln i v
  | .cwr1 i v ln => pack 0x3 1 ln i v
  | .crd0 i => pack 0x4 0 0 i 0
  | .crd1 i => pack 0x4 1 0 i 0
  | .frame => pack 0x5 0 0 0 0
  | .line y => pack 0x6 0 0 y 0
  | .reset => pack 0x7 0 0 0 0

/-- The command word of `nbits` given bits; every bit above them is 0. A command is one 64-bit word (R110), so no
byte order enters. -/
def tableWord (nbits w : Nat) : Word := BitVec.ofNat 64 (w % 2 ^ nbits)

/-- The instruction the decoder reads from a word of the opcode table. -/
def decodeTableWord (nbits w : Nat) : Option Instr := (decode (tableWord nbits w)).toOption

end Sys2Proof
end

