-- ==== Sys2Proof/Machine/State.lean ====
section
/-! DEFINITION. Everything the block holds (R30..R47), its power-on state (R320) and the reasons a step stops.
INVENTORY.md lists each field with the rule that names it. -/

namespace Sys2Proof.Machine

/-- The six RAM regions (R12, R33). -/
inductive Region where
  | spr
  | pf
  | txt
  | chr
  | lin
  | piv
deriving DecidableEq, Repr

/-- The closed refusal reasons of R301, in table order. -/
inductive Reason where
  /-- The word matches no row of R114 (R115). -/
  | illegalEncoding
  /-- The offset is at or beyond the region's size (R97). -/
  | offsetOutOfRange
  /-- The bank index is 8 or more (R163). -/
  | indexOutOfRange
  /-- The line number is `P_VIS_H` or more (R240). -/
  | lineOutOfRange
deriving DecidableEq, Repr

/-- The bytes of one RAM region: a list of (byte address, byte) in canonical form (addresses strictly rising, no
entry equal to `unlistedByte`). Halfword `a` is the bytes `2a` (bits 15:8) and `2a + 1` (bits 7:0), R92. -/
abbrev Memory := List Host.Cell

/-- A sprite descriptor (R131, R212). Positions are fixed8 integers (R10), which the pseudocode treats as exact
integers (R9). -/
structure Descriptor where
  code : BitVec 17
  color : BitVec 8
  flipX : Bool
  flipY : Bool
  prio : BitVec 4
  x : Int
  y : Int
  sx : Nat
  sy : Nat
deriving DecidableEq, Repr

/-- A decoded playfield cell: tile number, palette code, flips, blend select and pen mask (R183, R184, R186). -/
structure PfCell where
  tile : Half
  pal : BitVec 9
  flipX : Bool
  flipY : Bool
  blendSel : Bool
  penMask : BitVec 6
deriving DecidableEq, Repr

/-- A decoded text cell (R133). -/
structure TextCell where
  tile : BitVec 8
  pal : BitVec 6
  flipX : Bool
  flipY : Bool
deriving DecidableEq, Repr

/-- The caches of decoded graphics with their dirty bits (R43, R44). An entry that is listed is clean and holds
what was decoded; an entry that is not listed is dirty (log entry 10). Keys are strictly rising. No output reads a
cache. -/
structure Caches where
  /-- Char elements by number, 64 pens row by row (R43). -/
  chr : List (Nat × List (BitVec 4))
  /-- Pivot elements by number, 64 pens row by row (R43). -/
  piv : List (Nat × List (BitVec 4))
  /-- Playfield cells by PF offset div 2 (R44, R152). -/
  pf : List (Nat × PfCell)
  /-- Text cells by TXT offset (R44, R154). -/
  txt : List (Nat × TextCell)
  /-- Palettes of pixel-layer cells, by the TXT offset of the attribute word (R44, R154, log entry 6). -/
  pix : List (Nat × BitVec 6)
deriving DecidableEq, Repr

/-- Every element dirty (R47, R320 item 6). -/
def Caches.allDirty : Caches where
  chr := []
  piv := []
  pf := []
  txt := []
  pix := []

/-- A value a command returns (R314): a halfword of a read, or the colour row and the `pri_alp` row of a LINE. -/
inductive Result where
  | half (v : Half)
  | line (row : List Rgb) (trace : List Byte)
deriving DecidableEq, Repr

/-- The state of the block, with the command stream it takes and the values it has returned (R5, R314). -/
structure State where
  /-- The parameters of R7; no command changes them (R46, log entry 1). -/
  par : Params
  /-- `SPR`, sprite RAM (R33). -/
  spr : Memory
  /-- `PF`, playfield RAM (R33). -/
  pf : Memory
  /-- `TXT`, text RAM (R33). -/
  txt : Memory
  /-- `CHR`, char RAM (R33). -/
  chr : Memory
  /-- `LIN`, line RAM (R33). -/
  lin : Memory
  /-- `PIV`, pivot RAM (R33). -/
  piv : Memory
  /-- Control bank 0 (R34, R35). -/
  ctrl0 : Vector Half 8
  /-- Control bank 1 (R34, R36). -/
  ctrl1 : Vector Half 8
  /-- The sprite group buffers `sprbuf[g][y][x]` (R40), listed pixels only; an unlisted pixel is 0. -/
  sprbuf : List (Nat × Half)
  /-- The usage masks `usage[g][y]` (R41); an unlisted mask is 0. -/
  usage : List (Nat × Byte)
  /-- The displayed sprite list (R42, log entry 12). -/
  shown : List Descriptor
  /-- The decode caches and their dirty bits (R43, R44). -/
  cache : Caches
  /-- The refusal mark (R301): clear, or the first refusal's reason. -/
  mark : Option Reason
  /-- The command words the issuer has still to have taken, next first (R5, R31, log entry 17). -/
  stream : List Word
  /-- The values returned so far, in order (R314, log entry 17). -/
  out : List Result
deriving DecidableEq, Repr

/-- The block has no fault: nothing raises one, so the type is empty (R300, and 93_implementation_defined.md,
"No behaviour of this block is treated as `fault` or `stuck`"). -/
inductive Fault where
deriving DecidableEq, Repr

/-- Why a step is refused by the model. No arm of `exec` uses it now. -/
inductive Refusal where
  /-- An arm of `exec` whose instruction has no meaning in the model; safe. No arm raises it. -/
  | notModelled (mnemonic : String)
deriving DecidableEq, Repr

/-- The power-on draws (R320 items 3 and 5): the contents of the six regions, of the sprite group buffers
and of the usage masks, which the spec leaves open. -/
structure Draws where
  spr : Memory
  pf : Memory
  txt : Memory
  chr : Memory
  lin : Memory
  piv : Memory
  sprbuf : List (Nat × Half)
  usage : List (Nat × Byte)
deriving DecidableEq, Repr

/-- The draws State.reset takes: nothing listed (log entry 3, DESIGN CHOICE). -/
def Draws.zero : Draws where
  spr := []
  pf := []
  txt := []
  chr := []
  lin := []
  piv := []
  sprbuf := []
  usage := []

/-- The power-on state of R320 for given parameters and draws, with no command issued yet. -/
def State.powerOn (p : Params) (d : Draws) : State where
  par := p
  spr := d.spr
  pf := d.pf
  txt := d.txt
  chr := d.chr
  lin := d.lin
  piv := d.piv
  ctrl0 := Vector.replicate 8 0#16
  ctrl1 := Vector.replicate 8 0#16
  sprbuf := d.sprbuf
  usage := d.usage
  shown := []
  cache := Caches.allDirty
  mark := none
  stream := []
  out := []

/-- The machine right after power-on (R47, R320), with the parameters of log entry 2 and the draws of log
entry 3. `State.powerOn` is the same for every parameter value and every draw. -/
def State.reset : State := State.powerOn Params.defaults Draws.zero

end Sys2Proof.Machine
end

