-- ==== Sys2Proof/Machine/Ops.lean ====
section
/-! DEFINITION. The shared operations: sparse tables, memory and bank access (R11, R91), the refusal of a
command (R301), what a command returns (R314), the dirty marks (R43, R44) and fetching a command (R5). -/

namespace Sys2Proof.Machine

/-! ### Sparse tables: lists of (key, value) with the keys strictly rising -/

/-- The entry listed at a key. -/
def Sparse.find? {β : Type} : List (Nat × β) → Nat → Option β
  | [], _ => none
  | (j, v) :: m, k => if j = k then some v else Sparse.find? m k

/-- List a value at a key, in place of what was listed there. -/
def Sparse.put {β : Type} : List (Nat × β) → Nat → β → List (Nat × β)
  | [], k, v => [(k, v)]
  | (j, w) :: m, k, v =>
    if k < j then (k, v) :: (j, w) :: m
    else if k = j then (k, v) :: m
    else (j, w) :: Sparse.put m k v

/-- List nothing at a key. -/
def Sparse.del {β : Type} (m : List (Nat × β)) (k : Nat) : List (Nat × β) :=
  m.filter (fun e => e.1 != k)

/-- The value at a key, `d` where nothing is listed. -/
def Sparse.get {β : Type} (d : β) (m : List (Nat × β)) (k : Nat) : β := (Sparse.find? m k).getD d

/-- Set the value at a key; setting it to `d` lists nothing there, so that equal tables are equal lists. -/
def Sparse.set {β : Type} [DecidableEq β] (d : β) (m : List (Nat × β)) (k : Nat) (v : β) :
    List (Nat × β) :=
  if v = d then Sparse.del m k else Sparse.put m k v

/-- Keep what is listed at a key, or list `v` there. -/
def Sparse.fill {β : Type} (m : List (Nat × β)) (k : Nat) (v : β) : List (Nat × β) :=
  if (Sparse.find? m k).isSome then m else Sparse.put m k v

/-- The keys rise strictly. -/
def Sparse.sorted {β : Type} : List (Nat × β) → Bool
  | [] => true
  | (j, _) :: m => m.all (fun e => decide (j < e.1)) && Sparse.sorted m

/-- The canonical form: keys strictly rising and below `n`, no entry equal to `d`. -/
def Sparse.canonical {β : Type} [DecidableEq β] (d : β) (n : Nat) (m : List (Nat × β)) : Bool :=
  Sparse.sorted m && m.all (fun e => decide (e.1 < n) && decide (e.2 ≠ d))

/-! ### Memory -/

/-- The size of a region in halfwords (R6, R33; the source's sizes are bytes, D3). -/
def Region.size : Region → Nat
  | .spr => 0x8000
  | .pf => 0x6000
  | .txt => 0x1000
  | .chr => 0x1000
  | .lin => 0x8000
  | .piv => 0x8000

/-- The contents of a region. -/
def State.mem (s : State) : Region → Memory
  | .spr => s.spr
  | .pf => s.pf
  | .txt => s.txt
  | .chr => s.chr
  | .lin => s.lin
  | .piv => s.piv

/-- Replace the contents of a region. -/
def State.setMem (s : State) (r : Region) (m : Memory) : State :=
  match r with
  | .spr => { s with spr := m }
  | .pf => { s with pf := m }
  | .txt => { s with txt := m }
  | .chr => { s with chr := m }
  | .lin => { s with lin := m }
  | .piv => { s with piv := m }

/-- A memory in canonical form, with no byte at or beyond `size` halfwords. -/
def Memory.wf (m : Memory) (size : Nat) : Bool := Sparse.canonical unlistedByte (2 * size) m

/-- One byte of a region. -/
def readByte (m : Memory) (a : Nat) : Byte := Sparse.get unlistedByte m a

/-- One halfword of a region: bits 15:8 at the even byte address (R92, log entry 15). -/
def readHalf (m : Memory) (a : Nat) : Half := readByte m (2 * a) ++ readByte m (2 * a + 1)

/-- Store one byte. -/
def writeByte (m : Memory) (a : Nat) (v : Byte) : Memory := Sparse.set unlistedByte m a v

/-- Store one halfword, bits 15:8 at the even byte address (R92). -/
def writeHalf (m : Memory) (a : Nat) (v : Half) : Memory :=
  writeByte (writeByte m (2 * a) (v.extractLsb' 8 8)) (2 * a + 1) (v.extractLsb' 0 8)

/-- The byte mask of a lane field (R91). -/
def laneMask (ln : BitVec 2) : Half :=
  (if ln.getLsbD 1 then 0xFF00#16 else 0#16) ||| (if ln.getLsbD 0 then 0x00FF#16 else 0#16)

/-- The halfword a lane-masked write leaves: the enabled bytes of `v`, the others of `old` (R91). -/
def laneMerge (old v : Half) (ln : BitVec 2) : Half :=
  (old &&& (0xFFFF#16 ^^^ laneMask ln)) ||| (v &&& laneMask ln)

/-- `MemRead(R, a)` of R11. -/
def memRead (s : State) (r : Region) (a : Nat) : Half := readHalf (s.mem r) a

/-- `MemWrite(R, a, v, ln)` of R11 and R91. -/
def memWrite (s : State) (r : Region) (a : Nat) (v : Half) (ln : BitVec 2) : State :=
  s.setMem r (writeHalf (s.mem r) a (laneMerge (memRead s r a) v ln))

/-! ### Control banks -/

/-- Halfword `i` of a bank (R34). -/
def bankRead (b : Vector Half 8) (i : Fin 8) : Half := b[i]

/-- The lane-masked write of halfword `i` of a bank (R163). -/
def bankWrite (b : Vector Half 8) (i : Fin 8) (v : Half) (ln : BitVec 2) : Vector Half 8 :=
  b.set i (laneMerge (bankRead b i) v ln)

/-! ### Dirty marks: a dirty entry is one the cache does not list -/

/-- The dirty marks of a write to halfword `a` of a region (R151..R156). A text write marks the text cell and the
pixel-layer cell whose attribute word it is (R154); `SPR` and `LIN` writes mark nothing. -/
def markDirty (c : Caches) (r : Region) (a : Nat) : Caches :=
  match r with
  | .spr => c
  | .pf => if a < 0x4000 then { c with pf := Sparse.del c.pf (a / 2) } else c
  | .txt => { c with txt := Sparse.del c.txt a, pix := Sparse.del c.pix a }
  | .chr => { c with chr := Sparse.del c.chr (a / 16) }
  | .lin => c
  | .piv => { c with piv := Sparse.del c.piv (a / 16) }

/-! ### The outcomes of a command -/

/-- A refused command changes no state and returns nothing; the mark keeps the run's first refusal (R301, log
entry 4). The stream goes on: this is the one shared operation of every refusal. -/
def refuse (r : Reason) (s : State) : Host.Outcome State Fault Refusal :=
  .next { s with mark := s.mark.or (some r) }

/-- The command returns a value (R314). -/
def emit (v : Result) (s : State) : State := { s with out := s.out ++ [v] }

/-- A command of a write to a region (R151..R156): refused beyond the size (R97), else the lane-masked write and
its dirty marks. -/
def writeRegion (r : Region) (a : Nat) (v : Half) (ln : BitVec 2) (s : State) :
    Host.Outcome State Fault Refusal :=
  if r.size ≤ a then refuse .offsetOutOfRange s
  else .next { memWrite s r a v ln with cache := markDirty s.cache r a }

/-- A command of a read of a region (R157..R162): refused beyond the size (R97), else the halfword is returned and
no state changes (R95). -/
def readRegion (r : Region) (a : Nat) (s : State) : Host.Outcome State Fault Refusal :=
  if r.size ≤ a then refuse .offsetOutOfRange s
  else .next (emit (.half (memRead s r a)) s)

/-- A command of a read of a bank (R165, R166): refused at an index of 8 or more, else the halfword is returned. -/
def readBank (b : Vector Half 8) (i : Nat) (s : State) : Host.Outcome State Fault Refusal :=
  if h : i < 8 then .next (emit (.half (bankRead b ⟨i, h⟩)) s)
  else refuse .indexOutOfRange s

/-! ### Taking the next command of the stream -/

/-- The next command word and the state with it taken; none when the issuer has issued no more (R5, R31). -/
def fetch (s : State) : Option (Word × State) :=
  match s.stream with
  | [] => none
  | w :: rest => some (w, { s with stream := rest })

/-- Between commands the block holds its state unchanged (R313, log entry 9). -/
def idle (s : State) : Host.Outcome State Fault Refusal := .next s

/-- A word that spells no command is refused (R115). -/
def refuseWord (e : DecodeReject) (s : State) : Host.Outcome State Fault Refusal :=
  match e with
  | .illegalEncoding => refuse .illegalEncoding s

/-- The issuer's next command is `w`, before those still waiting. -/
def issueNext (w : Word) (s : State) : State := { s with stream := w :: s.stream }

end Sys2Proof.Machine
end

