-- ==== Sys2Proof/Machine/Bus.lean ====
section
/-! DEFINITION. The storage commands: NOP, region writes and reads, bank writes and reads, RESET (R150..R167). -/

namespace Sys2Proof.Machine

/-- NOP (R150). -/
def execNop (s : State) : Host.Outcome State Fault Refusal := .next s

/-- WRSPR (R151). -/
def execWrspr (a : Nat) (v : Half) (ln : BitVec 2) (s : State) : Host.Outcome State Fault Refusal :=
  writeRegion .spr a v ln s

/-- WRPF (R152). -/
def execWrpf (a : Nat) (v : Half) (ln : BitVec 2) (s : State) : Host.Outcome State Fault Refusal :=
  writeRegion .pf a v ln s

/-- WRTXT (R154). -/
def execWrtxt (a : Nat) (v : Half) (ln : BitVec 2) (s : State) : Host.Outcome State Fault Refusal :=
  writeRegion .txt a v ln s

/-- WRCHR (R153). -/
def execWrchr (a : Nat) (v : Half) (ln : BitVec 2) (s : State) : Host.Outcome State Fault Refusal :=
  writeRegion .chr a v ln s

/-- WRLIN (R155). -/
def execWrlin (a : Nat) (v : Half) (ln : BitVec 2) (s : State) : Host.Outcome State Fault Refusal :=
  writeRegion .lin a v ln s

/-- WRPIV (R156). -/
def execWrpiv (a : Nat) (v : Half) (ln : BitVec 2) (s : State) : Host.Outcome State Fault Refusal :=
  writeRegion .piv a v ln s

/-- RDSPR (R157). -/
def execRdspr (a : Nat) (s : State) : Host.Outcome State Fault Refusal := readRegion .spr a s

/-- RDPF (R158). -/
def execRdpf (a : Nat) (s : State) : Host.Outcome State Fault Refusal := readRegion .pf a s

/-- RDTXT (R159). -/
def execRdtxt (a : Nat) (s : State) : Host.Outcome State Fault Refusal := readRegion .txt a s

/-- RDCHR (R160). -/
def execRdchr (a : Nat) (s : State) : Host.Outcome State Fault Refusal := readRegion .chr a s

/-- RDLIN (R161). -/
def execRdlin (a : Nat) (s : State) : Host.Outcome State Fault Refusal := readRegion .lin a s

/-- RDPIV (R162). -/
def execRdpiv (a : Nat) (s : State) : Host.Outcome State Fault Refusal := readRegion .piv a s

/-- CWR0 (R163). -/
def execCwr0 (i : Nat) (v : Half) (ln : BitVec 2) (s : State) : Host.Outcome State Fault Refusal :=
  if h : i < 8 then .next { s with ctrl0 := bankWrite s.ctrl0 ⟨i, h⟩ v ln }
  else refuse .indexOutOfRange s

/-- CWR1 (R164). -/
def execCwr1 (i : Nat) (v : Half) (ln : BitVec 2) (s : State) : Host.Outcome State Fault Refusal :=
  if h : i < 8 then .next { s with ctrl1 := bankWrite s.ctrl1 ⟨i, h⟩ v ln }
  else refuse .indexOutOfRange s

/-- CRD0 (R165). -/
def execCrd0 (i : Nat) (s : State) : Host.Outcome State Fault Refusal := readBank s.ctrl0 i s

/-- CRD1 (R166). -/
def execCrd1 (i : Nat) (s : State) : Host.Outcome State Fault Refusal := readBank s.ctrl1 i s

/-- RESET: both banks 0 and every cached decode dirty, nothing else (R167, R321). -/
def execReset (s : State) : Host.Outcome State Fault Refusal :=
  .next { s with
    ctrl0 := Vector.replicate 8 0#16
    ctrl1 := Vector.replicate 8 0#16
    cache := Caches.allDirty }

end Sys2Proof.Machine
end

