-- ==== Sys2Proof/Machine/Scanline.lean ====
section
/-! DEFINITION. The records a LINE command works with and discards: the line-control snapshot (R241), a source
pixel (R247) and the accumulator of a column (R272). None is state (R45). -/

namespace Sys2Proof.Machine

/-- The line-control snapshot `LINE_SNAP` (R38, R241). -/
structure LineSnap where
  clipLo : Fin 4 → Half
  clipHi : Half
  pivotCtrl : Byte
  mosaic : Half
  bgPal : Half
  mix : Layer → Half
  xscroll : Fin 4 → Half
  yscroll : Fin 4 → Half
  zoom : Fin 4 → Half
  ctrl0 : Vector Half 8
  ctrl1 : Vector Half 8

/-- A source pixel `(opaque, index, blendsel)` (R247). -/
structure Pixel where
  isOpaque : Bool
  index : Half
  blendSel : Bool
deriving DecidableEq, Repr

/-- The accumulator of one column (R272). -/
structure Acc where
  has : Bool
  idx : Half
  prio : BitVec 4
  dst : Bool
  blended : Bool
  below : Half
deriving DecidableEq, Repr

end Sys2Proof.Machine
end

