-- ==== Sys2Proof/Machine/Flags.lean ====
section
/-! DEFINITION. The block has no status flags and no condition codes, and no command sets one (R32). What a
command reports beside its data is the `pri_alp` trace byte of each column of a LINE (R252) and the refusal mark
(`refuse` in Machine/Ops.lean, R301). -/

namespace Sys2Proof.Machine

/-- `PriAlp(acc)`: bit 7 background, 6 zero, 5 the top's destination role, 4 blended, 3:0 the top's priority
nibble, 0 for background (R252). -/
def priAlp (a : Acc) : Byte :=
  BitVec.ofBool (!a.has) ++ 0#1 ++ BitVec.ofBool a.dst ++ BitVec.ofBool a.blended ++
    (if a.has then a.prio else 0#4)

end Sys2Proof.Machine
end

