-- ==== Sys2Proof/Machine/Operands.lean ====
section
/-! DEFINITION. The fields of the words stored in the memories and banks (R35, R36, R38, R130..R137). A field is
read at its own width only (R39, R255); signed fields are two's complement (`sext_N` of R9 is `BitVec.toInt`). -/

namespace Sys2Proof.Machine

/-! ### Sprite attribute entries (R130) -/

/-- Halfword `i` of entry `e`. -/
def entryWord (spr : Memory) (e i : Nat) : Half := readHalf spr (8 * e + i)

/-- `END`: the scan stops before this entry. -/
def entryEnd (spr : Memory) (e : Nat) : Bool := (entryWord spr e 1).getLsbD 15

/-- `SKIP`: this entry makes no descriptor. -/
def entrySkip (spr : Memory) (e : Nat) : Bool := (entryWord spr e 1).getLsbD 14

/-- `XSCALE`. -/
def entryXScale (spr : Memory) (e : Nat) : Byte := (entryWord spr e 6).extractLsb' 0 8

/-- `YSCALE`. -/
def entryYScale (spr : Memory) (e : Nat) : Byte := (entryWord spr e 6).extractLsb' 8 8

/-- The descriptor of entry `e` (R131). -/
def descriptorOf (spr : Memory) (e : Nat) : Descriptor where
  code := (entryWord spr e 1).extractLsb' 0 1 ++ entryWord spr e 0
  color := (entryWord spr e 2).extractLsb' 0 8
  flipX := (entryWord spr e 1).getLsbD 1
  flipY := (entryWord spr e 1).getLsbD 2
  prio := (entryWord spr e 1).extractLsb' 4 4
  x := (entryWord spr e 3).toInt * 256 + ((entryWord spr e 5).extractLsb' 0 8).toNat
  y := (entryWord spr e 4).toInt * 256 + ((entryWord spr e 5).extractLsb' 8 8).toNat
  sx := (entryXScale spr e).toNat
  sy := (entryYScale spr e).toNat

/-! ### Playfield tile word (R132, R183) and text tile word (R133) -/

/-- The pen mask `(extra_planes & ~palette_code) << 4 | 0xF` (R186). -/
def penMask (tw : Half) : BitVec 6 :=
  (((tw.extractLsb' 10 2 &&& (3#2 ^^^ tw.extractLsb' 0 2)).setWidth 6) <<< 4) ||| 0xF#6

/-- A playfield cell from its tile word and tile index. The `XTILE` bits 13:12 are read by no rule (R184). -/
def decodePfCell (tw ti : Half) : PfCell where
  tile := ti
  pal := tw.extractLsb' 0 9
  flipX := tw.getLsbD 14
  flipY := tw.getLsbD 15
  blendSel := tw.getLsbD 9
  penMask := penMask tw

/-- A text cell from its tile word. -/
def decodeTextCell (w : Half) : TextCell where
  tile := w.extractLsb' 0 8
  pal := w.extractLsb' 9 6
  flipX := w.getLsbD 8
  flipY := w.getLsbD 15

/-- The palette of a pixel-layer cell, from its attribute word (R195): the text layer's `TPAL`. -/
def decodePixPal (w : Half) : BitVec 6 := w.extractLsb' 9 6

/-! ### Mix word (R134) -/

def mixBlendB (m : Half) : Bool := m.getLsbD 15
def mixBlendA (m : Half) : Bool := m.getLsbD 14
def mixEnable (m : Half) : Bool := m.getLsbD 13
def mixInvMode (m : Half) : Bool := m.getLsbD 12
def mixClipEn (m : Half) : BitVec 4 := m.extractLsb' 8 4
def mixClipInv (m : Half) : BitVec 4 := m.extractLsb' 4 4
def mixPrio (m : Half) : BitVec 4 := m.extractLsb' 0 4

/-! ### The snapshot's fields -/

/-- The left bound of clip plane `k`, 9-bit two's complement (R135, R136). -/
def clipLeft (n : LineSnap) (k : Fin 4) : Int :=
  (n.clipHi.extractLsb' k.val 1 ++ (n.clipLo k).extractLsb' 0 8).toInt

/-- The right bound of clip plane `k` (R135, R136). -/
def clipRight (n : LineSnap) (k : Fin 4) : Int :=
  (n.clipHi.extractLsb' (4 + k.val) 1 ++ (n.clipLo k).extractLsb' 8 8).toInt

/-- `PIX_SEL`, bit 3 of the pivot control byte (R137). -/
def pixSel (n : LineSnap) : Bool := n.pivotCtrl.getLsbD 3

/-- The mosaic factor `N = m + 1`, `m = MOSAIC[3:0]` (R250). -/
def mosaicFactor (n : LineSnap) : Nat := (n.mosaic.extractLsb' 0 4).toNat + 1

/-- `PAL_DEPTH`, the palette depth flag of the snapshot (R36, R254). -/
def palDepth (n : LineSnap) : Bool := (bankRead n.ctrl1 7).getLsbD 0

/-- `PIX_YOFF`, the pixel layer's `scroll_offset` 0..511 (R36). -/
def pixYOff (ctrl1 : Vector Half 8) : Nat := ((bankRead ctrl1 5).extractLsb' 0 9).toNat

/-- `PF_XBASE[p]`, the base X scroll of slot `p` (R35). -/
def pfXBase (ctrl0 : Vector Half 8) (p : Fin 4) : Int :=
  (bankRead ctrl0 ⟨p.val, by omega⟩).toInt

/-- `PF_YBASE[p]`, the base Y scroll of slot `p` (R35). -/
def pfYBase (ctrl0 : Vector Half 8) (p : Fin 4) : Int :=
  (bankRead ctrl0 ⟨4 + p.val, by omega⟩).toInt

end Sys2Proof.Machine
end

