-- ==== Sys2Proof/Machine/Blender.lean ====
section
/-! DEFINITION. alpha_blender_2op: blend roles, the blend equation and the colour resolve (R285..R292). -/

namespace Sys2Proof.Machine

/-! ### Roles -/

/-- `SrcRole(L, px)` (R285). -/
def srcRole (n : LineSnap) (l : Layer) (px : Pixel) : Bool :=
  mixBlendA (n.mix l) && (l.kind != .playfield || px.blendSel)

/-- `DstRole(L)` (R286). -/
def dstRole (n : LineSnap) (l : Layer) : Bool := mixBlendB (n.mix l)

/-- `BlendsWith(a, L, px)` (R287). -/
def blendsWith (n : LineSnap) (a : Acc) (l : Layer) (px : Pixel) : Bool := srcRole n l px && a.has && a.dst

/-! ### Colours and the equation -/

/-- The key of palette entry `index` at a depth. -/
def palKey (depth : Bool) (index : Half) : Nat := (if depth then 65536 else 0) + index.toNat

/-- `P_PALETTE(depth, index)` (R288). -/
def paletteColor (p : Params) (depth : Bool) (index : Half) : Rgb :=
  Sparse.get ⟨0#8, 0#8, 0#8⟩ p.palette (palKey depth index)

/-- One channel of the blend: `min(255, (T*KS + D*KD) >> 3)` (R289). -/
def blendChannel (ks kd : Nat) (t d : Byte) : Byte :=
  BitVec.ofNat 8 (min 255 ((t.toNat * ks + d.toNat * kd) >>> 3))

/-- `Blend(T, D)` (R289). -/
def blend (p : Params) (t d : Rgb) : Rgb where
  r := blendChannel p.blendKs p.blendKd t.r d.r
  g := blendChannel p.blendKs p.blendKd t.g d.g
  b := blendChannel p.blendKs p.blendKd t.b d.b

/-! ### Resolve -/

/-- `Resolve(a, bg, depth)` (R291); an empty column shows the background index (R251). -/
def resolve (p : Params) (a : Acc) (bg : Half) (depth : Bool) : Rgb :=
  if a.has then
    if a.blended then blend p (paletteColor p depth a.idx) (paletteColor p depth a.below)
    else paletteColor p depth a.idx
  else paletteColor p depth bg

end Sys2Proof.Machine
end

