-- ==== Sys2Proof/Machine/Mux.lean ====
section
/-! DEFINITION. pixel_priority_mux: the layer order and the mix accumulator (R270..R277). -/

namespace Sys2Proof.Machine

/-- `PRIO(L)`, the priority nibble of the layer's mix word (R270, R277). -/
def layerPrio (n : LineSnap) (l : Layer) : BitVec 4 := mixPrio (n.mix l)

/-- `rank(L)`, the layer's position in `P_TIE_ORDER` (R270). -/
def tieRank (p : Params) (l : Layer) : Nat := p.tieOrder.idxOf l

/-- The key order of R270: `(PRIO, rank)` of `a` is at most that of `b`. -/
def notAbove (p : Params) (n : LineSnap) (a b : Layer) : Bool :=
  decide ((layerPrio n a).toNat < (layerPrio n b).toNat) ||
    (decide (layerPrio n a = layerPrio n b) && decide (tieRank p a ≤ tieRank p b))

/-- `LayerOrder(S)`: the nine layers by ascending key, the first the most overdrawn (R270). -/
def layerOrder (p : Params) (n : LineSnap) : List Layer :=
  Layer.all.insertionSort (fun a b => notAbove p n a b = true)

/-- `EMPTY` (R272). -/
def Acc.empty : Acc where
  has := false
  idx := 0#16
  prio := 0#4
  dst := false
  blended := false
  below := 0#16

/-- `MuxUpdate(a, L, px)`: the new pixel becomes the top, blended with the old top when `BlendsWith` holds
(R273, R274). -/
def muxUpdate (n : LineSnap) (a : Acc) (l : Layer) (px : Pixel) : Acc where
  has := true
  idx := px.index
  prio := layerPrio n l
  dst := dstRole n l
  blended := blendsWith n a l px
  below := if blendsWith n a l px then a.idx else 0#16

end Sys2Proof.Machine
end

