-- ==== Sys2Proof/Machine/TileDecoder.lean ====
section
/-! DEFINITION. tile_decoder_bitplane_unpacker: pens of the four element sets (R170..R177). Coordinates are in
element space, before any flip (R170). -/

namespace Sys2Proof.Machine

/-- The key of pixel `(px, py)` of element `t` in `P_CHAR_PACKING`. -/
def packKey (t px py : Nat) : Nat := (t * 8 + py) * 8 + px

/-- The key of pixel `(px, py)` of tile `t` in a ROM table. -/
def romKey (t px py : Nat) : Nat := (t * 16 + py) * 16 + px

/-- R171's default packing of pixel `(px, py)`: pixel 0 of a halfword in bits 15:12. -/
def defaultPacking (px py : Nat) : BitVec 4 × BitVec 2 :=
  (BitVec.ofNat 4 (py * 2 + px / 4), BitVec.ofNat 2 (3 - px % 4))

/-- `P_CHAR_PACKING`: the halfword of the element and its nibble (0 = bits 3:0) that hold pixel `(px, py)`; where
the table lists none, the default (log entry 5). -/
def charPacking (p : Params) (t px py : Nat) : BitVec 4 × BitVec 2 :=
  Sparse.get (defaultPacking px py) p.charPacking (packKey t px py)

/-- The nibble `n` of a halfword. -/
def nibble (h : Half) (n : BitVec 2) : BitVec 4 := h.extractLsb' (4 * n.toNat) 4

/-- The pen of pixel `(px, py)` of element `t` of a dynamic set: 16 halfwords an element (R171). -/
def elementPen (p : Params) (m : Memory) (t px py : Nat) : BitVec 4 :=
  let at_ := charPacking p t px py
  nibble (readHalf m (t * 16 + at_.1.toNat)) at_.2

/-- `CharPen(t, px, py)` (R171). -/
def charPen (s : State) (t px py : Nat) : BitVec 4 := elementPen s.par s.chr t px py

/-- `PivPen(t, px, py)` (R171). -/
def pivPen (s : State) (t px py : Nat) : BitVec 4 := elementPen s.par s.piv t px py

/-- The 64 pens of an element, row by row: what a cache of a dynamic set holds (R43, R173). -/
def elementPens (p : Params) (m : Memory) (t : Nat) : List (BitVec 4) :=
  (List.range 64).map (fun i => elementPen p m t (i % 8) (i / 8))

/-- The merge of a low-plane pen and a high-plane value: `(lo & 0xF) | (hi & 0x30)` (R174). -/
def mergePlanes (lo : BitVec 4) (hi : BitVec 6) : BitVec 6 :=
  (lo.setWidth 6 &&& 0x0F#6) ||| (hi &&& 0x30#6)

/-- `PFPen(t, px, py)` (R174). -/
def pfPen (p : Params) (t px py : Nat) : BitVec 6 :=
  mergePlanes (Sparse.get 0#4 p.pfLo (romKey t px py)) (Sparse.get 0#6 p.pfHi (romKey t px py))

/-- `SprPenLo(c, px, py)` (R175). -/
def sprPenLo (p : Params) (c px py : Nat) : BitVec 4 := Sparse.get 0#4 p.sprLo (romKey c px py)

/-- `SprPenHi(c, px, py)` (R175). -/
def sprPenHi (p : Params) (c px py : Nat) : BitVec 6 :=
  mergePlanes (Sparse.get 0#4 p.sprLo (romKey c px py)) (Sparse.get 0#6 p.sprHi (romKey c px py))

end Sys2Proof.Machine
end

