-- ==== Sys2Proof/Machine/Sprites.lean ====
section
/-! DEFINITION. sprite_rasterizer: the FRAME command, the sprite list and the scan conversion (R210..R223). -/

namespace Sys2Proof.Machine

/-! ### The list (R211, R212) -/

/-- The number of entries of the attribute table (R130). -/
def entryCount : Nat := 4096

/-- The entry gives a descriptor: not skipped, and neither scale 0 (R211). -/
def entryKept (spr : Memory) (e : Nat) : Bool :=
  !entrySkip spr e && entryXScale spr e != 0#8 && entryYScale spr e != 0#8

/-- The entries the scan reads: in address order, up to the first `END` or the table's end (R211). -/
def scanned (spr : Memory) : List Nat := (List.range entryCount).takeWhile (fun e => !entryEnd spr e)

/-- `BuildList(SPR)` (R212). -/
def buildList (spr : Memory) : List Descriptor := ((scanned spr).filter (entryKept spr)).map (descriptorOf spr)

/-! ### Scan conversion (R213..R220) -/

/-- The group buffers and their usage masks while FRAME draws them. -/
structure Canvas where
  buf : List (Nat × Half)
  use : List (Nat × Byte)
deriving DecidableEq, Repr

/-- The key of `sprbuf[g][y][x]` (`x < 512`, since `P_SCREEN_W ≤ 512`). -/
def sprKey (g y x : Nat) : Nat := (g * 256 + y) * 512 + x

/-- The key of `usage[g][y]`. -/
def useKey (g y : Nat) : Nat := g * 256 + y

/-- `sprbuf[g][y][x]` (R40). -/
def sprAt (buf : List (Nat × Half)) (g y x : Nat) : Half := Sparse.get 0#16 buf (sprKey g y x)

/-- `usage[g][y]` (R41). -/
def usageAt (use : List (Nat × Byte)) (g y : Nat) : Byte := Sparse.get 0#8 use (useKey g y)

/-- A span from `pos` at scale `sc` covers pixel `i`: `pos ≤ i*256 < pos + 32*sc` (R213). -/
def covers (pos : Int) (sc i : Nat) : Bool :=
  decide (pos ≤ (i : Int) * 256) && decide ((i : Int) * 256 < pos + 32 * (sc : Int))

/-- The descriptor covers column `c` and row `r` (R213). -/
def Descriptor.covers (d : Descriptor) (r c : Nat) : Bool :=
  Machine.covers d.x d.sx c && Machine.covers d.y d.sy r

/-- The texel coordinate of pixel `i` of a span, nearest-lower and then mirrored (R214). -/
def texel (pos : Int) (sc : Nat) (flip : Bool) (i : Nat) : Nat :=
  let t := (((i : Int) * 256 - pos) / (2 * (sc : Int))).toNat
  if flip then 15 - t else t

/-- The pen of pixel `(r, c)`, from the set `P_SPR_6BPP` names (R215). -/
def sprPen (p : Params) (d : Descriptor) (r c : Nat) : BitVec 6 :=
  let u := texel d.x d.sx d.flipX c
  let v := texel d.y d.sy d.flipY r
  if p.spr6bpp then sprPenHi p d.code.toNat u v else (sprPenLo p d.code.toNat u v).setWidth 6

/-- The group of a descriptor, the top two bits of the color (R216). -/
def Descriptor.group (d : Descriptor) : Nat := (d.color.extractLsb' 6 2).toNat

/-- `SprIndex(color, pen)` (R219). -/
def sprIndex (color : BitVec 8) (pen : BitVec 6) : Half := (color.setWidth 16 <<< 4) ||| pen.setWidth 16

/-- The usage bit of a descriptor's sub-band, `1 << (prio >> 1)` (R220, R221). -/
def Descriptor.useBit (d : Descriptor) : Byte := 1#8 <<< (d.prio >>> 1).toNat

/-- A covered pixel of nonzero pen is written over what the buffer holds there: always under LATER_WINS, and under
EARLIER_WINS where no sprite of this FRAME has written it (R217). -/
def overwrites (p : Params) (old : Half) : Bool := p.sprOverdraw == .laterWins || old == 0#16

/-- A covered pixel of nonzero pen sets its usage bit: where it is written (R41, R220), or wherever it is covered
(the pseudocode of R217), as the parameter says (log entry 11). -/
def countsUse (p : Params) (old : Half) : Bool := p.usageRule == .covered || overwrites p old

/-- Draw one covered pixel of a descriptor (R217, R220). -/
def plot (p : Params) (d : Descriptor) (cv : Canvas) (r c : Nat) : Canvas :=
  let pen := sprPen p d r c
  let old := sprAt cv.buf d.group r c
  if pen = 0#6 then cv
  else
    { buf := if overwrites p old then Sparse.set 0#16 cv.buf (sprKey d.group r c) (sprIndex d.color pen) else cv.buf
      use :=
        if countsUse p old then
          Sparse.set 0#8 cv.use (useKey d.group r) (usageAt cv.use d.group r ||| d.useBit)
        else cv.use }

/-- The rows of the buffer that the descriptor covers (R217, R218). -/
def Descriptor.rows (d : Descriptor) : List Nat := (List.range 256).filter (Machine.covers d.y d.sy)

/-- The columns of the buffer that the descriptor covers (R217, R218). -/
def Descriptor.cols (d : Descriptor) (p : Params) : List Nat :=
  (List.range p.screenW).filter (Machine.covers d.x d.sx)

/-- `Raster(d)`: the covered pixels row by row (R217). Pixels outside the buffer are not among them (R218). -/
def raster (p : Params) (cv : Canvas) (d : Descriptor) : Canvas :=
  d.rows.foldl (fun cv r => (d.cols p).foldl (fun cv c => plot p d cv r c) cv) cv

/-- The cleared buffers and masks, with the list drawn in list order (R210, R217). -/
def drawList (p : Params) (l : List Descriptor) : Canvas := l.foldl (raster p) { buf := [], use := [] }

/-- FRAME (R210). -/
def execFrame (s : State) : Host.Outcome State Fault Refusal :=
  let l := buildList s.spr
  let cv := drawList s.par l
  .next { s with sprbuf := cv.buf, usage := cv.use, shown := l }

end Sys2Proof.Machine
end

