-- ==== Sys2Proof/Machine/Tilemap.lean ====
section
/-! DEFINITION. tilemap_address_gen: from a layer coordinate to a pixel, for the playfields, the text layer and
the pixel layer (R180..R195). -/

namespace Sys2Proof.Machine

/-! ### Playfields -/

/-- `NTM`, the number of tilemaps (R181). -/
def tilemaps (p : Params) : Nat := if p.extended then 4 else 8

/-- `COLS` (R181). -/
def mapCols (p : Params) : Nat := if p.extended then 64 else 32

/-- `ROWS` (R181). -/
def mapRows : Nat := 32

/-- `PFBASE(k)` of tilemap `k` (R181). -/
def pfBase (p : Params) (k : Nat) : Nat := if p.extended then k * 0x1000 else k * 0x800

/-- `MAP_W` (R181). -/
def mapW (p : Params) : Nat := mapCols p * 16

/-- `MAP_H` (R181). -/
def mapH : Nat := mapRows * 16

/-- `CellAddr(k, col, row)`, the offset of the tile word; the tile index follows it (R182). -/
def cellAddr (p : Params) (k col row : Nat) : Nat := pfBase p k + 2 * (row * mapCols p + col)

/-- The X step of a zoom word: `0x100` and the signed zoom byte, 8 fractional bits (R185). -/
def stepX (zoom : Half) : Int := 0x100 + (zoom.extractLsb' 0 8).toInt

/-- The Y step of a zoom word (R185). -/
def stepY (zoom : Half) : Int := 0x100 + (zoom.extractLsb' 8 8).toInt

/-- The map column slot `p` samples at screen column `x` (R185). -/
def mapX (s : State) (n : LineSnap) (p : Fin 4) (x : Nat) : Nat :=
  ((pfXBase s.ctrl0 p + (n.xscroll p).toInt + (x * stepX (n.zoom p)) / 256) % (mapW s.par : Int)).toNat

/-- The map row slot `p` samples on line `y` (R185). -/
def mapY (s : State) (n : LineSnap) (p : Fin 4) (y : Nat) : Nat :=
  ((pfYBase s.ctrl0 p + (n.yscroll p).toInt + (y * stepY (n.zoom p)) / 256) % (mapH : Int)).toNat

/-- The cell at an offset of `PF` (R182, R183). -/
def pfCellAt (pf : Memory) (a : Nat) : PfCell := decodePfCell (readHalf pf a) (readHalf pf (a + 1))

/-- The offset of the cell of tilemap `k` at a map coordinate (R187). -/
def pfCellAddrAt (p : Params) (k mx my : Nat) : Nat := cellAddr p k (mx / 16) (my / 16)

/-- A coordinate within an element of side `side`, mirrored by a flip (R170, R187, R191). -/
def flipped (flip : Bool) (side c : Nat) : Nat := if flip then side - 1 - c % side else c % side

/-- `PFPixel(k, mx, my)` (R187). The index puts the palette code above the masked pen (R188 for opacity). -/
def pfPixel (s : State) (k mx my : Nat) : Pixel :=
  let c := pfCellAt s.pf (pfCellAddrAt s.par k mx my)
  let pen := pfPen s.par c.tile.toNat (flipped c.flipX 16 mx) (flipped c.flipY 16 my) &&& c.penMask
  { isOpaque := pen != 0#6
    index := (c.pal.setWidth 16 <<< 4) ||| pen.setWidth 16
    blendSel := c.blendSel }

/-! ### Text layer -/

/-- The offset in `TXT` of the cell shown at screen `(x, y)` (R190, R191). -/
def textAddr (x y : Nat) : Nat := (y % 512) / 8 * 64 + (x % 512) / 8

/-- `TextPixel(x, y)` (R191). -/
def textPixel (s : State) (x y : Nat) : Pixel :=
  let c := decodeTextCell (readHalf s.txt (textAddr x y))
  let pen := charPen s c.tile.toNat (flipped c.flipX 8 x) (flipped c.flipY 8 y)
  { isOpaque := pen != 0#4
    index := (c.pal.setWidth 16 <<< 4) ||| pen.setWidth 16
    blendSel := false }

/-! ### Pixel layer -/

/-- `PixAttrAddr(cx, cy)` for the scroll offset `so` (R193). -/
def pixAttrAddr (so cx cy : Nat) : Nat := (cy + (if (cy * 8 + so) % 512 ≥ 256 then 32 else 0)) * 64 + cx

/-- The layer column sampled at screen column `x` (R194). -/
def pixLayerX (x : Nat) : Nat := x % 512

/-- The layer row sampled on line `y` (R194). -/
def pixLayerY (so y : Nat) : Nat := (y + so) % 256

/-- The pivot element whose pens screen `(x, y)` shows: cells are numbered column by column (R192). -/
def pixElement (so x y : Nat) : Nat := pixLayerX x / 8 * 32 + pixLayerY so y / 8

/-- The offset in `TXT` of the attribute word at screen `(x, y)` (R193, R195). -/
def pixAttrAt (so x y : Nat) : Nat := pixAttrAddr so (pixLayerX x / 8) (pixLayerY so y / 8)

/-- `PixPixel(x, y)` (R195). -/
def pixPixel (s : State) (x y : Nat) : Pixel :=
  let so := pixYOff s.ctrl1
  let pen := pivPen s (pixElement so x y) (pixLayerX x % 8) (pixLayerY so y % 8)
  let pal := decodePixPal (readHalf s.txt (pixAttrAt so x y))
  { isOpaque := pen != 0#4
    index := (pal.setWidth 16 <<< 4) ||| pen.setWidth 16
    blendSel := false }

end Sys2Proof.Machine
end

