-- ==== Sys2Proof/Machine/Compositor.lean ====
section
/-! DEFINITION. line_compositor_merge: the LINE command (R240..R256). The merge is evaluated column by column, as
R248 allows (log entry 16). -/

namespace Sys2Proof.Machine

/-! ### Latch (R241) -/

/-- The halfword of line RAM at `off` of the block of row `y` (R37). -/
def lineWord (s : State) (y off : Nat) : Half := readHalf s.lin (y * 128 + off)

/-- The offset of a layer's mix word in the block (R38). -/
def mixOffset : Layer → Nat
  | .piv => 0x08
  | .sp g => 0x09 + g.val
  | .pf p => 0x0D + p.val

/-- `Latch(y)` (R38, R241). -/
def latch (s : State) (y : Nat) : LineSnap where
  clipLo k := lineWord s y k.val
  clipHi := lineWord s y 0x04
  pivotCtrl := (lineWord s y 0x05).extractLsb' 0 8
  mosaic := lineWord s y 0x06
  bgPal := lineWord s y 0x07
  mix l := lineWord s y (mixOffset l)
  xscroll p := lineWord s y (0x11 + p.val)
  yscroll p := lineWord s y (0x15 + p.val)
  zoom p := lineWord s y (0x19 + p.val)
  ctrl0 := s.ctrl0
  ctrl1 := s.ctrl1

/-! ### Clip resolution (R242..R244) -/

/-- `Inside(k, x)`: the window is inclusive at both ends (R242). -/
def inside (n : LineSnap) (k : Fin 4) (x : Nat) : Bool :=
  decide (clipLeft n k ≤ (x : Int)) && decide ((x : Int) ≤ clipRight n k)

/-- The layer's effective invert bits: `CLIP_INV`, all four inverted by `INV_MODE` (R244). -/
def clipInvert (m : Half) : BitVec 4 := mixClipInv m ^^^ (if mixInvMode m then 0xF#4 else 0x0#4)

/-- The clip planes the layer enables. -/
def clipPlanes (m : Half) : List (Fin 4) := [0, 1, 2, 3].filter (fun k => (mixClipEn m).getLsbD k.val)

/-- The test of one enabled plane, `Inside(k, x) XOR inv[k]` (R243). -/
def clipTest (n : LineSnap) (m : Half) (k : Fin 4) (x : Nat) : Bool :=
  (inside n k x).xor ((clipInvert m).getLsbD k.val)

/-- `ClipPass(L, x)` (R243). -/
def clipPass (p : Params) (n : LineSnap) (l : Layer) (x : Nat) : Bool :=
  let m := n.mix l
  if mixClipEn m = 0#4 then true
  else
    match p.clipCombine with
    | .all => (clipPlanes m).all (fun k => clipTest n m k x)
    | .any => (clipPlanes m).any (fun k => clipTest n m k x)

/-! ### Layers and their sources (R245..R247) -/

/-- The layer is drawn on the line (R246). -/
def layerEnabled (n : LineSnap) (l : Layer) : Bool := mixEnable (n.mix l)

/-- `Sample(L, x, y)` (R247). -/
def sample (s : State) (n : LineSnap) (l : Layer) (x y : Nat) : Pixel :=
  match l with
  | .piv => if pixSel n then pixPixel s x y else textPixel s x y
  | .sp g =>
    let v := sprAt s.sprbuf g.val y x
    { isOpaque := v != 0#16, index := v, blendSel := false }
  | .pf p => pfPixel s p.val (mapX s n p x) (mapY s n p y)

/-- The layer reaches column `x`: enabled and passing its clip test (R240). -/
def reaches (s : State) (n : LineSnap) (l : Layer) (x : Nat) : Bool :=
  layerEnabled n l && clipPass s.par n l x

/-! ### The mix of one column (R240, R248, R275) -/

/-- One layer's turn at a column: a layer that does not reach the column, or whose pixel is transparent, leaves
the accumulator (R275). -/
def mixStep (s : State) (n : LineSnap) (y x : Nat) (a : Acc) (l : Layer) : Acc :=
  if reaches s n l x && (sample s n l x y).isOpaque then muxUpdate n a l (sample s n l x y) else a

/-- The accumulator of column `x` after every layer, before mosaic (R240). -/
def columnAcc (s : State) (n : LineSnap) (y x : Nat) : Acc :=
  (layerOrder s.par n).foldl (mixStep s n y x) Acc.empty

/-! ### Mosaic (R250) -/

/-- `Mosaic(acc, N)`: each column takes the accumulator of the first column of its run. -/
def mosaic (acc : Nat → Acc) (factor : Nat) : Nat → Acc := fun x => acc (x - x % factor)

/-- The accumulator of column `x` that the resolve stage reads. -/
def finalAcc (s : State) (y x : Nat) : Acc :=
  let n := latch s y
  mosaic (columnAcc s n y) (mosaicFactor n) x

/-! ### Resolve and outputs (R251..R254) -/

/-- The colour of column `x` of line `y` (R253). -/
def lineColor (s : State) (y x : Nat) : Rgb :=
  let n := latch s y
  resolve s.par (finalAcc s y x) n.bgPal (palDepth n)

/-- The trace byte of column `x` of line `y` (R252). -/
def lineTrace (s : State) (y x : Nat) : Byte := priAlp (finalAcc s y x)

/-- What LINE `y` returns: `P_SCREEN_W` colours and `P_SCREEN_W` trace bytes (R240). -/
def lineResult (s : State) (y : Nat) : Result :=
  .line ((List.range s.par.screenW).map (lineColor s y)) ((List.range s.par.screenW).map (lineTrace s y))

/-! ### The caches: an element a LINE samples is decoded if it is dirty, and is then clean (R43, R44, R173) -/

/-- The cache entries that sampling layer `l` at `(x, y)` consults. -/
def touch (s : State) (n : LineSnap) (y : Nat) (l : Layer) (c : Caches) (x : Nat) : Caches :=
  match l with
  | .piv =>
    if pixSel n then
      let so := pixYOff s.ctrl1
      { c with
        pix := Sparse.fill c.pix (pixAttrAt so x y) (decodePixPal (readHalf s.txt (pixAttrAt so x y)))
        piv := Sparse.fill c.piv (pixElement so x y) (elementPens s.par s.piv (pixElement so x y)) }
    else
      let cell := decodeTextCell (readHalf s.txt (textAddr x y))
      { c with
        txt := Sparse.fill c.txt (textAddr x y) cell
        chr := Sparse.fill c.chr cell.tile.toNat (elementPens s.par s.chr cell.tile.toNat) }
  | .sp _ => c
  | .pf p =>
    let a := pfCellAddrAt s.par p.val (mapX s n p x) (mapY s n p y)
    { c with pf := Sparse.fill c.pf (a / 2) (pfCellAt s.pf a) }

/-- The entries that layer `l` consults over the line: the columns it reaches. -/
def touchLayer (s : State) (n : LineSnap) (y : Nat) (c : Caches) (l : Layer) : Caches :=
  ((List.range s.par.screenW).filter (reaches s n l)).foldl (touch s n y l) c

/-- The caches after LINE `y`. -/
def lineCaches (s : State) (y : Nat) : Caches := Layer.all.foldl (touchLayer s (latch s y) y) s.cache

/-- LINE (R240): refused at or beyond `P_VIS_H`, else the rows are returned. Only the caches, which no output
reads, change (log entry 7). -/
def execLine (y : Nat) (s : State) : Host.Outcome State Fault Refusal :=
  if s.par.visH ≤ y then refuse .lineOutOfRange s
  else .next { emit (lineResult s y) s with cache := lineCaches s y }

end Sys2Proof.Machine
end

