-- ==== Sys2Proof/Machine/Dispatch.lean ====
section
/-! DEFINITION. One arm per command (R112, R114). -/

namespace Sys2Proof.Machine

def exec (i : Instr) (s : State) : Host.Outcome State Fault Refusal :=
  match i with
  | .nop => Sys2Proof.Machine.execNop s
  | .wrspr a v ln => Sys2Proof.Machine.execWrspr a v ln s
  | .wrpf a v ln => Sys2Proof.Machine.execWrpf a v ln s
  | .wrtxt a v ln => Sys2Proof.Machine.execWrtxt a v ln s
  | .wrchr a v ln => Sys2Proof.Machine.execWrchr a v ln s
  | .wrlin a v ln => Sys2Proof.Machine.execWrlin a v ln s
  | .wrpiv a v ln => Sys2Proof.Machine.execWrpiv a v ln s
  | .rdspr a => Sys2Proof.Machine.execRdspr a s
  | .rdpf a => Sys2Proof.Machine.execRdpf a s
  | .rdtxt a => Sys2Proof.Machine.execRdtxt a s
  | .rdchr a => Sys2Proof.Machine.execRdchr a s
  | .rdlin a => Sys2Proof.Machine.execRdlin a s
  | .rdpiv a => Sys2Proof.Machine.execRdpiv a s
  | .cwr0 k v ln => Sys2Proof.Machine.execCwr0 k v ln s
  | .cwr1 k v ln => Sys2Proof.Machine.execCwr1 k v ln s
  | .crd0 k => Sys2Proof.Machine.execCrd0 k s
  | .crd1 k => Sys2Proof.Machine.execCrd1 k s
  | .frame => Sys2Proof.Machine.execFrame s
  | .line y => Sys2Proof.Machine.execLine y s
  | .reset => Sys2Proof.Machine.execReset s

end Sys2Proof.Machine
end

