-- ==== Sys2Proof/Machine/Step.lean ====
section
/-! DEFINITION. One step: the block takes the next command of the stream and executes it to completion (R5, R94,
R99). -/

namespace Sys2Proof.Machine

/-- One command: take the next word, decode it and execute it; an illegal word is refused (R115); with no command
waiting the state is held (R313). -/
def step (s : State) : Host.Outcome State Fault Refusal :=
  match fetch s with
  | none => idle s
  | some (w, t) =>
    match decode w with
    | .ok i => exec i t
    | .error e => refuseWord e t

/-- The state with a table word issued as the next command (log entry 8). -/
def State.withFetchWord (s : State) (nbits w : Nat) : State := issueNext (tableWord nbits w) s

end Sys2Proof.Machine
end

