-- ==== Sys2Proof/Machine/Assembler.lean ====
section
/-! DEFINITION. The assembler of R117 and the pseudo-instructions of R118. The block sees only the commands that
come out. A line is a list of characters. What R117 leaves open of the text is
log entry 13. -/

namespace Sys2Proof.Machine

/-! ### Pseudo-instructions (R118) -/

/-- The pseudo-instructions of R118. -/
inductive Pseudo where
  | setpf (k col row : Nat) (attr idx : Half)
  | settxt (col row : Nat) (w : Half)
  | setln (y off : Nat) (v : Half)
  | setspr (e : Nat) (ws : Vector Half 8)
  | wrbhi (r : Region) (addr : Nat) (b : Byte)
  | wrblo (r : Region) (addr : Nat) (b : Byte)
  | fill (r : Region) (a n : Nat) (v : Half)
  | clrline (y : Nat)
deriving DecidableEq, Repr

/-- The write command of a region (R113). -/
def writeInstr (r : Region) (a : Nat) (v : Half) (ln : BitVec 2) : Instr :=
  match r with
  | .spr => .wrspr a v ln
  | .pf => .wrpf a v ln
  | .txt => .wrtxt a v ln
  | .chr => .wrchr a v ln
  | .lin => .wrlin a v ln
  | .piv => .wrpiv a v ln

/-- The read command of a region (R113). -/
def readInstr (r : Region) (a : Nat) : Instr :=
  match r with
  | .spr => .rdspr a
  | .pf => .rdpf a
  | .txt => .rdtxt a
  | .chr => .rdchr a
  | .lin => .rdlin a
  | .piv => .rdpiv a

/-- The expansion of a pseudo-instruction (R118); SETPF takes the geometry of R181. -/
def Pseudo.expand (p : Params) : Pseudo → List Instr
  | .setpf k col row attr idx =>
    [.wrpf (cellAddr p k col row) attr 3#2, .wrpf (cellAddr p k col row + 1) idx 3#2]
  | .settxt col row w => [.wrtxt (row * 64 + col) w 3#2]
  | .setln y off v => [.wrlin (y * 128 + off) v 3#2]
  | .setspr e ws => (List.finRange 8).map (fun i => .wrspr (8 * e + i.val) ws[i] 3#2)
  | .wrbhi r a b => [writeInstr r a (b.setWidth 16 <<< 8) 2#2]
  | .wrblo r a b => [writeInstr r a (b.setWidth 16) 1#2]
  | .fill r a n v => (List.range n).map (fun i => writeInstr r (a + i) v 3#2)
  | .clrline y => (List.range 128).map (fun i => .wrlin (y * 128 + i) 0#16 3#2)

/-! ### Text (R117) -/

/-- The value of a hexadecimal digit. -/
def digitValue (c : Char) : Option Nat :=
  if '0' ≤ c ∧ c ≤ '9' then some (c.toNat - '0'.toNat)
  else if 'a' ≤ c ∧ c ≤ 'f' then some (c.toNat - 'a'.toNat + 10)
  else if 'A' ≤ c ∧ c ≤ 'F' then some (c.toNat - 'A'.toNat + 10)
  else none

/-- A nonempty run of digits of a base. -/
def parseDigits (base : Nat) (cs : List Char) : Option Nat :=
  if cs.isEmpty then none
  else cs.foldl (fun acc c => acc.bind (fun n => (digitValue c).bind (fun d =>
    if d < base then some (n * base + d) else none))) (some 0)

/-- A number, decimal or `0x`-prefixed hexadecimal (R117). -/
def parseNumber : List Char → Option Nat
  | '0' :: 'x' :: cs => parseDigits 16 cs
  | cs => parseDigits 10 cs

/-- A blank. -/
def isBlank (c : Char) : Bool := c = ' ' || c = '\t'

/-- Drop the blanks at both ends. -/
def trimBlanks (cs : List Char) : List Char := ((cs.dropWhile isBlank).reverse.dropWhile isBlank).reverse

/-- The text before a comment (R117). -/
def stripComment (cs : List Char) : List Char := cs.takeWhile (· != ';')

/-- The first word of a text and what follows it. -/
def splitWord (cs : List Char) : List Char × List Char :=
  (cs.takeWhile (fun c => !isBlank c), trimBlanks (cs.dropWhile (fun c => !isBlank c)))

/-- Comma-separated numbers; no text is no operand. -/
def parseOperands (cs : List Char) : Option (List Nat) :=
  if cs.isEmpty then some [] else ((cs.splitOn ',').map trimBlanks).mapM parseNumber

/-- A number of `n` bits. -/
def sized (n v : Nat) : Option (BitVec n) := if v < 2 ^ n then some (BitVec.ofNat n v) else none

/-- A region by its name in a mnemonic (R12). -/
def regionNamed (cs : List Char) : Option Region :=
  [Region.spr, .pf, .txt, .chr, .lin, .piv].find? (fun r => cs = match r with
    | .spr => "SPR".toList
    | .pf => "PF".toList
    | .txt => "TXT".toList
    | .chr => "CHR".toList
    | .lin => "LIN".toList
    | .piv => "PIV".toList)

/-- The operands `addr, data[, ln]`, the lanes both where none is written (R117). -/
def writeOperands : List Nat → Option (Nat × Half × BitVec 2)
  | [a, v] => (sized 16 v).map (fun v => (a, v, 3#2))
  | [a, v, ln] => (sized 16 v).bind (fun v => (sized 2 ln).map (fun ln => (a, v, ln)))
  | _ => none

/-- A command of R117 from its mnemonic and operands. -/
def coreLine (name : List Char) (ops : List Nat) : Option Instr :=
  if name = "NOP".toList then (if ops = [] then some .nop else none)
  else if name = "FRAME".toList then (if ops = [] then some .frame else none)
  else if name = "RESET".toList then (if ops = [] then some .reset else none)
  else if name = "LINE".toList then (match ops with | [y] => some (.line y) | _ => none)
  else if name = "CRD0".toList then (match ops with | [i] => some (.crd0 i) | _ => none)
  else if name = "CRD1".toList then (match ops with | [i] => some (.crd1 i) | _ => none)
  else if name = "CWR0".toList then (writeOperands ops).map (fun o => .cwr0 o.1 o.2.1 o.2.2)
  else if name = "CWR1".toList then (writeOperands ops).map (fun o => .cwr1 o.1 o.2.1 o.2.2)
  else
    match name with
    | 'W' :: 'R' :: r =>
      (regionNamed r).bind (fun r => (writeOperands ops).map (fun o => writeInstr r o.1 o.2.1 o.2.2))
    | 'R' :: 'D' :: r =>
      (regionNamed r).bind (fun r => match ops with | [a] => some (readInstr r a) | _ => none)
    | _ => none

/-- A pseudo-instruction of R118 from its name, its region where it has one, and its numbers. R118 bounds none of the
numbers: that the byte of WRBHI and WRBLO fits 8 bits and every stored halfword 16 is the model's choice (log entry
13). -/
def pseudoLine (name : List Char) (r : Option Region) (ops : List Nat) : Option Pseudo :=
  if name = "SETPF".toList then
    match r, ops with
    | none, [k, col, row, attr, idx] =>
      (sized 16 attr).bind (fun attr => (sized 16 idx).map (fun idx => .setpf k col row attr idx))
    | _, _ => none
  else if name = "SETTXT".toList then
    match r, ops with
    | none, [col, row, w] => (sized 16 w).map (fun w => .settxt col row w)
    | _, _ => none
  else if name = "SETLN".toList then
    match r, ops with
    | none, [y, off, v] => (sized 16 v).map (fun v => .setln y off v)
    | _, _ => none
  else if name = "SETSPR".toList then
    match r, ops with
    | none, [e, w0, w1, w2, w3, w4, w5, w6, w7] =>
      if [w0, w1, w2, w3, w4, w5, w6, w7].all (fun w => decide (w < 2 ^ 16)) then
        some (.setspr e (#v[w0, w1, w2, w3, w4, w5, w6, w7].map (BitVec.ofNat 16)))
      else none
    | _, _ => none
  else if name = "CLRLINE".toList then
    match r, ops with
    | none, [y] => some (.clrline y)
    | _, _ => none
  else if name = "WRBHI".toList then
    match r, ops with
    | some r, [a, b] => (sized 8 b).map (fun b => .wrbhi r a b)
    | _, _ => none
  else if name = "WRBLO".toList then
    match r, ops with
    | some r, [a, b] => (sized 8 b).map (fun b => .wrblo r a b)
    | _, _ => none
  else if name = "FILL".toList then
    match r, ops with
    | some r, [a, n, v] => (sized 16 v).map (fun v => .fill r a n v)
    | _, _ => none
  else none

/-- The operand text of a line, with the region name that stands before the numbers of WRBHI, WRBLO and FILL. -/
def regionPrefix (rest : List Char) : Option Region × List Char :=
  let w := splitWord rest
  match regionNamed w.1 with
  | some r => (some r, w.2)
  | none => (none, rest)

/-- One line of text as the commands it stands for, each with an encoding; a blank or comment line is none. -/
def assembleLine (p : Params) (cs : List Char) : Option (List Instr) :=
  let text := trimBlanks (stripComment cs)
  if text.isEmpty then some []
  else
    let w := splitWord text
    let rp := regionPrefix w.2
    (parseOperands rp.2).bind (fun ops =>
      let is := match rp.1, coreLine w.1 ops with
        | none, some i => some [i]
        | _, _ => (pseudoLine w.1 rp.1 ops).map (Pseudo.expand p)
      is.bind (fun is => if is.all Instr.wf then some is else none))

end Sys2Proof.Machine
end

