-- ==== Sys2Proof/Safety.lean ====
section
/-! DEFINITION. The terms claims use: the parameter ranges of R7, the invariant of the state, which commands are
inside the interface (R114, R169), a run of commands (R314), the issuer's duty to give a FRAME first (R315). -/

namespace Sys2Proof

open Machine

/-- The canonical form of the `P_CHAR_PACKING` table: keys strictly rising and of one of the 2048 elements, no entry
equal to the default (log entries 5 and 14). -/
def packingCanonical (m : List (Nat × (BitVec 4 × BitVec 2))) : Bool :=
  Sparse.sorted m && m.all (fun e => decide (e.1 < 2048 * 64) && e.2 != defaultPacking (e.1 % 8) (e.1 / 8 % 8))

/-- The parameters lie in the ranges of R7, and the tables are in canonical form. The model is total outside them too
(log entry 18). -/
structure Params.Ok (p : Params) : Prop where
  screenW_pos : 1 ≤ p.screenW
  screenW_le : p.screenW ≤ 512
  visH_pos : 1 ≤ p.visH
  visH_le : p.visH ≤ 256
  tieOrder : p.tieOrder.isPerm Layer.all = true
  blendKs : p.blendKs ≤ 8
  blendKd : p.blendKd ≤ 8
  charPacking : packingCanonical p.charPacking = true
  pfLo : Sparse.canonical 0#4 (2 ^ 24) p.pfLo = true
  pfHi : Sparse.canonical 0#6 (2 ^ 24) p.pfHi = true
  sprLo : Sparse.canonical 0#4 (2 ^ 25) p.sprLo = true
  sprHi : Sparse.canonical 0#6 (2 ^ 25) p.sprHi = true
  palette : Sparse.canonical ⟨0#8, 0#8, 0#8⟩ (2 ^ 17) p.palette = true

/-- Every cache entry that is clean is the decode of the RAM as it stands: no stale decode exists (R43, R320 item
6, R326). -/
structure Machine.State.CacheCoherent (s : State) : Prop where
  chr : ∀ e ∈ s.cache.chr, e.1 < 256 ∧ e.2 = elementPens s.par s.chr e.1
  piv : ∀ e ∈ s.cache.piv, e.1 < 2048 ∧ e.2 = elementPens s.par s.piv e.1
  pf : ∀ e ∈ s.cache.pf, e.1 < 0x2000 ∧ e.2 = pfCellAt s.pf (2 * e.1)
  txt : ∀ e ∈ s.cache.txt, e.1 < 0x1000 ∧ e.2 = decodeTextCell (readHalf s.txt e.1)
  pix : ∀ e ∈ s.cache.pix, e.1 < 0x1000 ∧ e.2 = decodePixPal (readHalf s.txt e.1)

/-- The five caches list each element at most once, in rising order. -/
def Machine.Caches.sorted (c : Caches) : Bool :=
  Sparse.sorted c.chr && Sparse.sorted c.piv && Sparse.sorted c.pf && Sparse.sorted c.txt &&
    Sparse.sorted c.pix

/-- The column of a pixel of the sprite buffers, from its key. -/
def sprKeyColumn (k : Nat) : Nat := k % 512

/-- The invariant of the machine: every region, buffer and mask table is in canonical form and holds nothing outside
its size, the sprite buffers hold nothing at or beyond `P_SCREEN_W`, the displayed list holds at most 4096
descriptors and none of scale 0, and no cache entry is stale. -/
structure Machine.State.Inv (s : State) : Prop where
  par : s.par.Ok
  spr : Memory.wf s.spr Region.spr.size = true
  pf : Memory.wf s.pf Region.pf.size = true
  txt : Memory.wf s.txt Region.txt.size = true
  chr : Memory.wf s.chr Region.chr.size = true
  lin : Memory.wf s.lin Region.lin.size = true
  piv : Memory.wf s.piv Region.piv.size = true
  sprbuf : Sparse.canonical 0#16 (4 * 256 * 512) s.sprbuf = true
  sprbufColumns : ∀ e ∈ s.sprbuf, sprKeyColumn e.1 < s.par.screenW
  usage : Sparse.canonical 0#8 (4 * 256) s.usage = true
  shownLength : s.shown.length ≤ entryCount
  shownScales : ∀ d ∈ s.shown, d.sx ≠ 0 ∧ d.sy ≠ 0
  cacheSorted : s.cache.sorted = true
  cacheCoherent : s.CacheCoherent

/-- Draws that are contents of the six regions, the buffers and the masks, in canonical form (R320). -/
structure Machine.Draws.Ok (p : Params) (d : Draws) : Prop where
  spr : Memory.wf d.spr Region.spr.size = true
  pf : Memory.wf d.pf Region.pf.size = true
  txt : Memory.wf d.txt Region.txt.size = true
  chr : Memory.wf d.chr Region.chr.size = true
  lin : Memory.wf d.lin Region.lin.size = true
  piv : Memory.wf d.piv Region.piv.size = true
  sprbuf : Sparse.canonical 0#16 (4 * 256 * 512) d.sprbuf = true
  sprbufColumns : ∀ e ∈ d.sprbuf, sprKeyColumn e.1 < p.screenW
  usage : Sparse.canonical 0#8 (4 * 256) d.usage = true

/-- The value checks that come after decoding: the command is inside the interface (R114, R169). -/
def Instr.inRange (visH : Nat) : Instr → Bool
  | .nop => true
  | .wrspr a _ _ => decide (a < 0x8000)
  | .wrpf a _ _ => decide (a < 0x6000)
  | .wrtxt a _ _ => decide (a < 0x1000)
  | .wrchr a _ _ => decide (a < 0x1000)
  | .wrlin a _ _ => decide (a < 0x8000)
  | .wrpiv a _ _ => decide (a < 0x8000)
  | .rdspr a => decide (a < 0x8000)
  | .rdpf a => decide (a < 0x6000)
  | .rdtxt a => decide (a < 0x1000)
  | .rdchr a => decide (a < 0x1000)
  | .rdlin a => decide (a < 0x8000)
  | .rdpiv a => decide (a < 0x8000)
  | .cwr0 i _ _ => decide (i < 8)
  | .cwr1 i _ _ => decide (i < 8)
  | .crd0 i => decide (i < 8)
  | .crd1 i => decide (i < 8)
  | .frame => true
  | .line y => decide (y < visH)
  | .reset => true

/-- The reason a command outside the interface is refused with (R301). NOP, FRAME and RESET have no value check, so
their words are refused only as encodings. -/
def Instr.refusalReason : Instr → Reason
  | .nop => .illegalEncoding
  | .wrspr _ _ _ => .offsetOutOfRange
  | .wrpf _ _ _ => .offsetOutOfRange
  | .wrtxt _ _ _ => .offsetOutOfRange
  | .wrchr _ _ _ => .offsetOutOfRange
  | .wrlin _ _ _ => .offsetOutOfRange
  | .wrpiv _ _ _ => .offsetOutOfRange
  | .rdspr _ => .offsetOutOfRange
  | .rdpf _ => .offsetOutOfRange
  | .rdtxt _ => .offsetOutOfRange
  | .rdchr _ => .offsetOutOfRange
  | .rdlin _ => .offsetOutOfRange
  | .rdpiv _ => .offsetOutOfRange
  | .cwr0 _ _ _ => .indexOutOfRange
  | .cwr1 _ _ _ => .indexOutOfRange
  | .crd0 _ => .indexOutOfRange
  | .crd1 _ => .indexOutOfRange
  | .frame => .illegalEncoding
  | .line _ => .lineOutOfRange
  | .reset => .illegalEncoding

/-- The word is a command inside the interface (R169). -/
def wordAccepted (visH : Nat) (w : Word) : Bool :=
  match decode w with
  | .ok i => i.inRange visH
  | .error _ => false

/-- The command is refused: it changes no state and returns nothing, and the mark is set (R301). -/
def RefusedCommand (i : Instr) (s : State) : Prop := ∃ m, exec i s = .next { s with mark := some m }

/-- Layer `l` supplies an opaque pixel at column `x` of line `y`: it is enabled, passes its clip test there, and its
source pixel is opaque (R275). -/
def supplies (s : State) (n : LineSnap) (y x : Nat) (l : Layer) : Bool :=
  reaches s n l x && (sample s n l x y).isOpaque

/-- One layer's turn in the loop of R240, over the accumulators of the whole line: a disabled layer is skipped (R246). -/
def mixLayer (s : State) (n : LineSnap) (y : Nat) (acc : List Acc) (l : Layer) : List Acc :=
  if layerEnabled n l then
    acc.mapIdx (fun x a =>
      if clipPass s.par n l x && (sample s n l x y).isOpaque then muxUpdate n a l (sample s n l x y) else a)
  else acc

/-- The accumulators of the line after the layer loop of R240, before mosaic: layer by layer, as the spec writes it.
`columnAcc` evaluates the same loop column by column, as R248 allows. -/
def mixLine (s : State) (y : Nat) : List Acc :=
  (layerOrder s.par (latch s y)).foldl (mixLayer s (latch s y) y) (List.replicate s.par.screenW Acc.empty)

/-- `top` supplies a pixel at the column and no supplying layer is above it in the order of R270. -/
def IsTopLayer (s : State) (n : LineSnap) (y x : Nat) (top : Layer) : Prop :=
  supplies s n y x top = true ∧ ∀ l, supplies s n y x l = true → notAbove s.par n l top = true

/-- `under` is the supplying layer directly under `top`. -/
def IsUnderLayer (s : State) (n : LineSnap) (y x : Nat) (top under : Layer) : Prop :=
  supplies s n y x under = true ∧ under ≠ top ∧
    ∀ l, supplies s n y x l = true → l ≠ top → notAbove s.par n l under = true

/-- The descriptor writes pixel `(r, c)` of group `g`: it is of the group, covers the pixel, and its pen there is not
0 (R216, R217). -/
def Machine.Descriptor.paints (p : Params) (g r c : Nat) (d : Descriptor) : Bool :=
  d.group == g && d.covers r c && sprPen p d r c != 0#6

/-- What a returned value is, but for its contents: a halfword, or two rows of a width. -/
inductive ResultShape where
  | half
  | line (colours traces : Nat)
deriving DecidableEq, Repr

/-- The shape of a returned value. -/
def Machine.Result.shape : Result → ResultShape
  | .half _ => .half
  | .line row trace => .line row.length trace.length

/-- What a command inside the interface returns (R314): one halfword for a read, two rows for a LINE. -/
def Instr.resultShape (p : Params) : Instr → Option ResultShape
  | .nop => none
  | .wrspr _ _ _ => none
  | .wrpf _ _ _ => none
  | .wrtxt _ _ _ => none
  | .wrchr _ _ _ => none
  | .wrlin _ _ _ => none
  | .wrpiv _ _ _ => none
  | .rdspr _ => some .half
  | .rdpf _ => some .half
  | .rdtxt _ => some .half
  | .rdchr _ => some .half
  | .rdlin _ => some .half
  | .rdpiv _ => some .half
  | .cwr0 _ _ _ => none
  | .cwr1 _ _ _ => none
  | .crd0 _ => some .half
  | .crd1 _ => some .half
  | .frame => none
  | .line _ => some (.line p.screenW p.screenW)
  | .reset => none

/-- What a word returns: nothing when it is refused (R301). -/
def wordResultShape (p : Params) (w : Word) : Option ResultShape :=
  match decode w with
  | .ok i => if i.inRange p.visH then i.resultShape p else none
  | .error _ => none

/-- A run: every command of the stream, in order (R314). -/
def Machine.State.run (s : State) : Host.Outcome State Fault Refusal :=
  Host.Core.run Sys2Proof.core s.stream.length s

/-- The word is the FRAME command. -/
def isFrameWord (w : Word) : Bool :=
  match decode w with
  | .ok .frame => true
  | _ => false

/-- The word is a LINE command. -/
def isLineWord (w : Word) : Bool :=
  match decode w with
  | .ok (.line _) => true
  | _ => false

/-- The word is an RDSPR command. -/
def isRdsprWord (w : Word) : Bool :=
  match decode w with
  | .ok (.rdspr _) => true
  | _ => false

/-- Every LINE of the stream comes after a FRAME: the issuer's second duty of R315. -/
def frameBeforeLines : List Word → Bool
  | [] => true
  | w :: ws => isFrameWord w || (!isLineWord w && frameBeforeLines ws)

end Sys2Proof
end

