-- ==== Sys2Proof/Certificates/Slice0/Obligations.lean ====
section
/-! DEFINITION. The statements for the provers. OBLIGATIONS.json lists them with the rules they rest on.
A statement about every state is about every parameter value, every RAM content and every power-on draw, since
State holds them all (log entries 1 and 3). -/

open Sys2Proof Sys2Proof.Machine

/-! ### Encoding and decoding (30_encoding.md) -/

/-- V1 of 95_test_vectors.md: words written from R110..R114 decode to the commands they stand for, and words of
the reserved space to none. -/
def Obligations.SpelledWordsDecode : Prop :=
  decode 0x0000000000000000#64 = .ok .nop ∧
  decode 0x1103000000010010#64 = .ok (.wrpf 0x0001 0x0010#16 3#2) ∧
  decode 0x1102000000010010#64 = .ok (.wrpf 0x0001 0x0010#16 2#2) ∧
  decode 0x1303000000101234#64 = .ok (.wrchr 0x0010 0x1234#16 3#2) ∧
  decode 0x210000005FFF0000#64 = .ok (.rdpf 0x5FFF) ∧
  decode 0x3101000000050100#64 = .ok (.cwr1 5 0x0100#16 1#2) ∧
  decode 0x4100000000070000#64 = .ok (.crd1 7) ∧
  decode 0x5000000000000000#64 = .ok .frame ∧
  decode 0x6000000000050000#64 = .ok (.line 5) ∧
  decode 0x7000000000000000#64 = .ok .reset ∧
  decode 0x1107000000010010#64 = .error .illegalEncoding ∧
  decode 0x2100000000010001#64 = .error .illegalEncoding ∧
  decode 0x8000000000000000#64 = .error .illegalEncoding

/-- R114: the table, that a word spells a row exactly when `word & mask = match`, that no two rows match one word, that
a word no row matches spells no command, and that a command failing its value check is refused. -/
def Obligations.OpcodeTableDecodesEveryWord : Prop :=
  (opcodeTable.map (fun r => (r.mnemonic, r.pattern, r.mask)) =
    [("NOP", 0x0000000000000000#64, 0xFFFFFFFFFFFFFFFF#64),
     ("WRSPR", 0x1000000000000000#64, 0xFFFC000000000000#64),
     ("WRPF", 0x1100000000000000#64, 0xFFFC000000000000#64),
     ("WRTXT", 0x1200000000000000#64, 0xFFFC000000000000#64),
     ("WRCHR", 0x1300000000000000#64, 0xFFFC000000000000#64),
     ("WRLIN", 0x1400000000000000#64, 0xFFFC000000000000#64),
     ("WRPIV", 0x1500000000000000#64, 0xFFFC000000000000#64),
     ("RDSPR", 0x2000000000000000#64, 0xFFFF00000000FFFF#64),
     ("RDPF", 0x2100000000000000#64, 0xFFFF00000000FFFF#64),
     ("RDTXT", 0x2200000000000000#64, 0xFFFF00000000FFFF#64),
     ("RDCHR", 0x2300000000000000#64, 0xFFFF00000000FFFF#64),
     ("RDLIN", 0x2400000000000000#64, 0xFFFF00000000FFFF#64),
     ("RDPIV", 0x2500000000000000#64, 0xFFFF00000000FFFF#64),
     ("CWR0", 0x3000000000000000#64, 0xFFFC000000000000#64),
     ("CWR1", 0x3100000000000000#64, 0xFFFC000000000000#64),
     ("CRD0", 0x4000000000000000#64, 0xFFFF00000000FFFF#64),
     ("CRD1", 0x4100000000000000#64, 0xFFFF00000000FFFF#64),
     ("FRAME", 0x5000000000000000#64, 0xFFFFFFFFFFFFFFFF#64),
     ("LINE", 0x6000000000000000#64, 0xFFFF00000000FFFF#64),
     ("RESET", 0x7000000000000000#64, 0xFFFFFFFFFFFFFFFF#64)]) ∧
  (∀ r ∈ opcodeTable, ∀ w : Word, w &&& r.mask = r.pattern →
    decode w = .ok (r.make (w.extractLsb' 16 32).toNat (w.extractLsb' 0 16) (w.extractLsb' 48 2))) ∧
  (∀ r ∈ opcodeTable, ∀ r' ∈ opcodeTable, ∀ w : Word,
    w &&& r.mask = r.pattern → w &&& r'.mask = r'.pattern → r.mnemonic = r'.mnemonic) ∧
  (∀ w : Word, (∀ r ∈ opcodeTable, w &&& r.mask ≠ r.pattern) → decode w = .error .illegalEncoding) ∧
  (∀ (i : Instr) (s : State), i.inRange s.par.visH = false → RefusedCommand i s)

/-- Decoding the word of an instruction gives the instruction back: every well-formed instruction, every operand. -/
def Obligations.DecodeOfEncodeIsTheInstruction : Prop :=
  ∀ i : Instr, i.wf = true → decode (encode i) = .ok i

/-- Each word has one meaning: a word that decodes is the encoding of the instruction it decodes to, which is
well formed. -/
def Obligations.DecodedWordIsTheEncoding : Prop :=
  ∀ (w : Word) (i : Instr), decode w = .ok i → i.wf = true ∧ encode i = w

/-- R115: a word that matches no row is refused and changes no state; this covers `OP` 0x8..0xF, reserved `SEL`
values, nonzero `RSV` bits and nonzero unused fields; the all-zero word is NOP. -/
def Obligations.IllegalWordIsRefused : Prop :=
  (∀ (s : State) (w : Word) (rest : List Word), s.stream = w :: rest →
    (∀ r ∈ opcodeTable, w &&& r.mask ≠ r.pattern) →
      ∃ m, step s = .next { s with stream := rest, mark := some m }) ∧
  (∀ w : Word,
    (8 ≤ (opField w).toNat ∨
     ((opField w = 1#4 ∨ opField w = 2#4) ∧ 6 ≤ (selField w).toNat) ∨
     ((opField w = 3#4 ∨ opField w = 4#4) ∧ 2 ≤ (selField w).toNat) ∨
     ((opField w = 0#4 ∨ 5 ≤ (opField w).toNat) ∧ selField w ≠ 0#4) ∨
     rsvField w ≠ 0#6 ∨
     (¬ (opField w = 1#4 ∨ opField w = 3#4) ∧ (lnField w ≠ 0#2 ∨ dataField w ≠ 0#16)) ∨
     ((opField w = 0#4 ∨ opField w = 5#4 ∨ opField w = 7#4) ∧ addrField w ≠ 0#32)) →
    ∀ r ∈ opcodeTable, w &&& r.mask ≠ r.pattern) ∧
  decode 0#64 = .ok .nop

/-! ### A step, a run, and what ends one -/

/-- A step takes the next word of the stream and, when it decodes, is `exec` of the instruction at the state with
the word taken; nothing else is added around `exec`. -/
def Obligations.StepRunsTheDecodedCommand : Prop :=
  ∀ (s : State) (w : Word) (rest : List Word) (i : Instr), s.stream = w :: rest → decode w = .ok i →
    step s = exec i { s with stream := rest }

/-- R330: every run of commands ends, with every command of the stream taken: no command can hang. And every step of
every state gives a next state: no step faults, and none is refused by the model (R300). That a step with no command
waiting gives one too is the model's choice (log entry 9). -/
def Obligations.EveryRunEnds : Prop :=
  (∀ s : State, ∃ t, s.run = .next t ∧ t.stream = []) ∧ (∀ s : State, ∃ t, step s = .next t)

/-- R314: a run returns, in order, one halfword per read and one pair of rows of `P_SCREEN_W` per LINE, and
nothing for any other command or for a refused one. -/
def Obligations.RunReturnsOneValuePerReadAndLine : Prop :=
  ∀ s t : State, s.run = .next t →
    t.out.map Result.shape =
      s.out.map Result.shape ++ s.stream.filterMap (wordResultShape s.par)

/-! ### Refusals (60_exceptions.md) -/

/-- R97: an offset at or beyond the size of its space is refused and no state changes, for all eight spaces. -/
def Obligations.OffsetOutsideItsSpaceIsRefused : Prop :=
  ∀ (s : State) (a : Nat) (v : Half) (ln : BitVec 2),
    (0x8000 ≤ a → RefusedCommand (.wrspr a v ln) s ∧ RefusedCommand (.rdspr a) s) ∧
    (0x6000 ≤ a → RefusedCommand (.wrpf a v ln) s ∧ RefusedCommand (.rdpf a) s) ∧
    (0x1000 ≤ a → RefusedCommand (.wrtxt a v ln) s ∧ RefusedCommand (.rdtxt a) s) ∧
    (0x1000 ≤ a → RefusedCommand (.wrchr a v ln) s ∧ RefusedCommand (.rdchr a) s) ∧
    (0x8000 ≤ a → RefusedCommand (.wrlin a v ln) s ∧ RefusedCommand (.rdlin a) s) ∧
    (0x8000 ≤ a → RefusedCommand (.wrpiv a v ln) s ∧ RefusedCommand (.rdpiv a) s) ∧
    (8 ≤ a → RefusedCommand (.cwr0 a v ln) s ∧ RefusedCommand (.crd0 a) s) ∧
    (8 ≤ a → RefusedCommand (.cwr1 a v ln) s ∧ RefusedCommand (.crd1 a) s)

/-- The reasons of R301: with the mark clear, a refused command sets it to its reason, an illegal word first (R304),
and changes nothing else. That a set mark keeps the first reason is the model's choice (log entry 4). -/
def Obligations.MarkRecordsTheFirstReason : Prop :=
  (∀ (i : Instr) (s : State), i.inRange s.par.visH = false →
    exec i s = .next { s with mark := s.mark.or (some i.refusalReason) }) ∧
  (∀ (s : State) (w : Word) (rest : List Word), s.stream = w :: rest → decode w = .error .illegalEncoding →
    step s = .next { s with stream := rest, mark := s.mark.or (some .illegalEncoding) })

/-- The mark is kept for the whole run (R301): no step clears or changes a set mark, RESET included (R321). That it keeps
its reason, and not only that it stays set, is the model's choice (log entry 4). -/
def Obligations.SetMarkIsKept : Prop :=
  ∀ (s t : State) (m : Reason), s.run = .next t → s.mark = some m → t.mark = some m

/-- A run whose every word is a command inside the interface (R169) leaves a clear mark clear. -/
def Obligations.AcceptedRunLeavesTheMarkClear : Prop :=
  ∀ s t : State, s.mark = none → (∀ w ∈ s.stream, wordAccepted s.par.visH w = true) → s.run = .next t →
    t.mark = none

/-! ### Storage commands (40_bus_interface.md, 20_memory.md) -/

/-- R150, R313: NOP does nothing, and between commands the block holds its state unchanged. That a step with no command
waiting stands for the time between commands is the model's choice (log entry 9). -/
def Obligations.NopAndIdleHoldTheState : Prop :=
  (∀ s : State, exec .nop s = .next s) ∧ (∀ s : State, s.stream = [] → step s = .next s)

/-- R91, for WRSPR, WRPF, WRTXT, WRCHR, WRLIN and WRPIV: the write completes at every offset inside the region;
the halfword becomes the masked merge; every byte but its two, every other region and every other field but the
caches is unchanged; with `ln = 0` no bit changes, and the dirty marking still happens. -/
def Obligations.RegionWriteStoresTheEnabledLanes : Prop :=
  ∀ (r : Region) (a : Nat) (v : Half) (ln : BitVec 2) (s : State), a < r.size →
    ∃ t, exec (writeInstr r a v ln) s = .next t ∧
      (let m : Half := (if ln.getLsbD 1 then 0xFF00#16 else 0#16) ||| (if ln.getLsbD 0 then 0x00FF#16 else 0#16)
       memRead t r a = (memRead s r a &&& (0xFFFF#16 ^^^ m)) ||| (v &&& m)) ∧
      (∀ b, b ≠ 2 * a → b ≠ 2 * a + 1 → readByte (t.mem r) b = readByte (s.mem r) b) ∧
      (∀ r', r' ≠ r → t.mem r' = s.mem r') ∧
      t = { s.setMem r (t.mem r) with cache := t.cache } ∧
      (ln = 0#2 → ∀ b, readByte (t.mem r) b = readByte (s.mem r) b) ∧
      t.cache = markDirty s.cache r a

/-- The dirty marks of R152, R153, R154 and R156: a write makes exactly its own elements dirty (not listed), a PF
write only below 0x4000, and SPR and LIN writes none (R151, R155). The key of the pixel-layer cells is the model's
choice (log entry 6). -/
def Obligations.RegionWriteMarksItsElementsDirty : Prop :=
  ∀ (r : Region) (a : Nat) (v : Half) (ln : BitVec 2) (s : State), a < r.size →
    ∃ t, exec (writeInstr r a v ln) s = .next t ∧ ∀ k,
      Sparse.find? t.cache.pf k =
        (if r = .pf ∧ a < 0x4000 ∧ k = a / 2 then none else Sparse.find? s.cache.pf k) ∧
      Sparse.find? t.cache.chr k = (if r = .chr ∧ k = a / 16 then none else Sparse.find? s.cache.chr k) ∧
      Sparse.find? t.cache.piv k = (if r = .piv ∧ k = a / 16 then none else Sparse.find? s.cache.piv k) ∧
      Sparse.find? t.cache.txt k = (if r = .txt ∧ k = a then none else Sparse.find? s.cache.txt k) ∧
      Sparse.find? t.cache.pix k = (if r = .txt ∧ k = a then none else Sparse.find? s.cache.pix k)

/-- R157..R162: a region read inside the region returns the halfword and changes no state; outside it is refused. -/
def Obligations.RegionReadReturnsTheHalfword : Prop :=
  ∀ (s : State) (a : Nat),
    ((a < 0x8000 → exec (.rdspr a) s = .next { s with out := s.out ++ [.half (memRead s .spr a)] }) ∧
      (0x8000 ≤ a → RefusedCommand (.rdspr a) s)) ∧
    ((a < 0x6000 → exec (.rdpf a) s = .next { s with out := s.out ++ [.half (memRead s .pf a)] }) ∧
      (0x6000 ≤ a → RefusedCommand (.rdpf a) s)) ∧
    ((a < 0x1000 → exec (.rdtxt a) s = .next { s with out := s.out ++ [.half (memRead s .txt a)] }) ∧
      (0x1000 ≤ a → RefusedCommand (.rdtxt a) s)) ∧
    ((a < 0x1000 → exec (.rdchr a) s = .next { s with out := s.out ++ [.half (memRead s .chr a)] }) ∧
      (0x1000 ≤ a → RefusedCommand (.rdchr a) s)) ∧
    ((a < 0x8000 → exec (.rdlin a) s = .next { s with out := s.out ++ [.half (memRead s .lin a)] }) ∧
      (0x8000 ≤ a → RefusedCommand (.rdlin a) s)) ∧
    ((a < 0x8000 → exec (.rdpiv a) s = .next { s with out := s.out ++ [.half (memRead s .piv a)] }) ∧
      (0x8000 ≤ a → RefusedCommand (.rdpiv a) s))

/-- A region read after a write of both lanes returns the data, at the same offset, and what it returned before
at every other offset and in every other region. -/
def Obligations.ReadAfterWriteReturnsTheData : Prop :=
  ∀ (r r' : Region) (a b : Nat) (v : Half) (s : State), a < r.size → b < r'.size →
    ∃ t u, exec (writeInstr r a v 3#2) s = .next t ∧ exec (readInstr r' b) t = .next u ∧
      u.out = s.out ++ [.half (if r' = r ∧ b = a then v else memRead s r' b)]

/-- R95: a read changes no state but what it returns; writing the same value twice has the effect of writing it
once, in states whose regions are in canonical form. -/
def Obligations.ReadsAndRepeatedWritesHaveNoFurtherEffect : Prop :=
  (∀ (r : Region) (a : Nat) (s t : State), exec (readInstr r a) s = .next t →
    { t with out := s.out, mark := s.mark } = s) ∧
  (∀ (r : Region) (a : Nat) (v : Half) (ln : BitVec 2) (s t : State), s.Inv →
    exec (writeInstr r a v ln) s = .next t → exec (writeInstr r a v ln) t = .next t)

/-- CWR0 and CWR1 (R163, R164): at an index below 8 the halfword becomes the masked merge, its seven neighbours and
every other field stay; the next LINE's snapshot, the pixel-layer offset and the palette depth are read from what was
written; at an index of 8 or more the command is refused. -/
def Obligations.BankWriteStoresTheEnabledLanes : Prop :=
  ∀ (v : Half) (ln : BitVec 2) (s : State),
    let m : Half := (if ln.getLsbD 1 then 0xFF00#16 else 0#16) ||| (if ln.getLsbD 0 then 0x00FF#16 else 0#16)
    (∀ i : Fin 8, ∃ t, exec (.cwr0 i.val v ln) s = .next t ∧
      t.ctrl0[i] = (s.ctrl0[i] &&& (0xFFFF#16 ^^^ m)) ||| (v &&& m) ∧
      (∀ j : Fin 8, j ≠ i → t.ctrl0[j] = s.ctrl0[j]) ∧ t = { s with ctrl0 := t.ctrl0 } ∧
      ∀ y, (latch t y).ctrl0 = t.ctrl0) ∧
    (∀ i : Fin 8, ∃ t, exec (.cwr1 i.val v ln) s = .next t ∧
      t.ctrl1[i] = (s.ctrl1[i] &&& (0xFFFF#16 ^^^ m)) ||| (v &&& m) ∧
      (∀ j : Fin 8, j ≠ i → t.ctrl1[j] = s.ctrl1[j]) ∧ t = { s with ctrl1 := t.ctrl1 } ∧
      (∀ y, palDepth (latch t y) = (t.ctrl1[7]).getLsbD 0) ∧
      pixYOff t.ctrl1 = (t.ctrl1[5]).toNat % 512) ∧
    (∀ i : Nat, 8 ≤ i → RefusedCommand (.cwr0 i v ln) s ∧ RefusedCommand (.cwr1 i v ln) s)

/-- R165, R166: a bank read at an index below 8 returns the halfword, reserved bits as last written, and changes no
state; at 8 or more it is refused. -/
def Obligations.BankReadReturnsTheHalfword : Prop :=
  ∀ s : State,
    (∀ i : Fin 8, exec (.crd0 i.val) s = .next { s with out := s.out ++ [.half s.ctrl0[i]] } ∧
      exec (.crd1 i.val) s = .next { s with out := s.out ++ [.half s.ctrl1[i]] }) ∧
    (∀ i : Nat, 8 ≤ i → RefusedCommand (.crd0 i) s ∧ RefusedCommand (.crd1 i) s)

/-- R167, R321: RESET completes in every state; it zeroes every halfword of both banks, makes every cached decode dirty, and changes nothing
else: RAM, sprite buffers, usage masks, displayed list and mark keep their values. -/
def Obligations.ResetZeroesTheBanksAndDirtiesTheCaches : Prop :=
  ∀ s : State, ∃ t, exec .reset s = .next t ∧
    (∀ i : Fin 8, t.ctrl0[i] = 0#16 ∧ t.ctrl1[i] = 0#16) ∧
    (∀ k, Sparse.find? t.cache.chr k = none ∧ Sparse.find? t.cache.piv k = none ∧
      Sparse.find? t.cache.pf k = none ∧ Sparse.find? t.cache.txt k = none ∧
      Sparse.find? t.cache.pix k = none) ∧
    t = { s with ctrl0 := t.ctrl0, ctrl1 := t.ctrl1, cache := t.cache }

/-! ### Rules about every command (10_state.md) -/

/-- R46: no command changes a parameter. -/
def Obligations.NoCommandChangesTheParameters : Prop :=
  ∀ s t : State, step s = .next t → t.par = s.par

/-- Who writes what: a region only its own write command (R33), a bank only its own write command (R34) and RESET
(R167), the group buffers, the usage masks and the displayed list only FRAME (R40, R42). -/
def Obligations.OnlyTheNamedCommandsChangeState : Prop :=
  ∀ (i : Instr) (s t : State), exec i s = .next t →
    (∀ r : Region, (∀ a v ln, i ≠ writeInstr r a v ln) → t.mem r = s.mem r) ∧
    (i ≠ .reset → (∀ k v ln, i ≠ .cwr0 k v ln) → t.ctrl0 = s.ctrl0) ∧
    (i ≠ .reset → (∀ k v ln, i ≠ .cwr1 k v ln) → t.ctrl1 = s.ctrl1) ∧
    (i ≠ .frame → t.sprbuf = s.sprbuf ∧ t.usage = s.usage ∧ t.shown = s.shown)

/-! ### The invariant and power-on (70_reset_and_hazards.md) -/

/-- R320: at power-on, whatever the parameters and the draws, the regions and buffers hold the draws, both banks are
0, the displayed list is empty, every cache entry is dirty, and the mark is clear; no command has run. -/
def Obligations.PowerOnStateIsAsTabled : Prop :=
  ∀ (p : Params) (d : Draws),
    let s := State.powerOn p d
    s.par = p ∧ s.spr = d.spr ∧ s.pf = d.pf ∧ s.txt = d.txt ∧ s.chr = d.chr ∧ s.lin = d.lin ∧ s.piv = d.piv ∧
    (∀ i : Fin 8, s.ctrl0[i] = 0#16 ∧ s.ctrl1[i] = 0#16) ∧
    s.sprbuf = d.sprbuf ∧ s.usage = d.usage ∧ s.shown = [] ∧
    (∀ k, Sparse.find? s.cache.chr k = none ∧ Sparse.find? s.cache.piv k = none ∧
      Sparse.find? s.cache.pf k = none ∧ Sparse.find? s.cache.txt k = none ∧
      Sparse.find? s.cache.pix k = none) ∧
    s.mark = none ∧ s.stream = [] ∧ s.out = []

/-- The invariant holds at power-on, for all parameters of R7's ranges and all draws, and so at State.reset (whose
parameters and draws are the model's choice, log entries 2 and 3). -/
def Obligations.PowerOnMeetsTheInvariant : Prop :=
  (∀ (p : Params) (d : Draws), p.Ok → d.Ok p → (State.powerOn p d).Inv) ∧ State.reset.Inv

/-- Every step keeps the invariant: canonical memories and tables, buffers inside the screen width, and no stale
cache entry, whichever command runs. -/
def Obligations.StepKeepsTheInvariant : Prop :=
  ∀ s t : State, s.Inv → step s = .next t → t.Inv

/-! ### Tile decoder (41_tile_decoder.md) -/

/-- R174, R175: the pen of a playfield tile has bits 3:0 of the low-plane set and bits 5:4 of the high-plane set, and so
has the 6-bit sprite pen; the 4-bit sprite pen is the low-plane value. -/
def Obligations.MergedPenTakesBothPlanes : Prop :=
  ∀ (p : Params) (t px py : Nat),
    (pfPen p t px py).toNat =
      (Sparse.get 0#6 p.pfHi (romKey t px py)).toNat / 16 * 16 + (Sparse.get 0#4 p.pfLo (romKey t px py)).toNat ∧
    (sprPenHi p t px py).toNat =
      (Sparse.get 0#6 p.sprHi (romKey t px py)).toNat / 16 * 16 + (Sparse.get 0#4 p.sprLo (romKey t px py)).toNat ∧
    sprPenLo p t px py = Sparse.get 0#4 p.sprLo (romKey t px py)

/-- With the default packing the pen of a pixel of a char or pivot element is the nibble of its halfword, pixel 0 of four in
bits 15:12. That nibble order is the default of `P_CHAR_PACKING`, which R171 calls the spec's own (D20); the default is named
as a premise, and the form of the parameter is log entry 5. -/
def Obligations.ElementPenIsItsNibble : Prop :=
  ∀ (s : State) (t px py : Nat), px < 8 → py < 8 → s.par.charPacking = [] →
    (charPen s t px py).toNat =
      (memRead s .chr (t * 16 + py * 2 + px / 4)).toNat / 2 ^ (12 - 4 * (px % 4)) % 16 ∧
    (pivPen s t px py).toNat =
      (memRead s .piv (t * 16 + py * 2 + px / 4)).toNat / 2 ^ (12 - 4 * (px % 4)) % 16

/-! ### Tilemaps (42_tilemap_address_gen.md) -/

/-- With the geometry of R181 and R182, in either mode the cells of the playfields are two halfwords each, lie below 0x4000, do
not overlap, and fill that area ("both modes fill PF[0x0000..0x3FFF]"). The placement is the spec's own (D13). -/
def Obligations.PlayfieldCellsFillTheGridArea : Prop :=
  ∀ p : Params,
    (∀ k col row, k < tilemaps p → col < mapCols p → row < mapRows → cellAddr p k col row + 1 < 0x4000) ∧
    (∀ k col row k' col' row', k < tilemaps p → col < mapCols p → row < mapRows →
      k' < tilemaps p → col' < mapCols p → row' < mapRows →
      cellAddr p k col row = cellAddr p k' col' row' → k = k' ∧ col = col' ∧ row = row') ∧
    (∀ a, a < 0x2000 → ∃ k col row, k < tilemaps p ∧ col < mapCols p ∧ row < mapRows ∧
      cellAddr p k col row = 2 * a)

/-- R185: the map coordinate is the base scroll plus the line scroll plus the stepped screen coordinate, wrapped at the map
size; a step lies in 0x80..0x17F; with a zoom word of 0 one screen pixel is one map pixel. The arithmetic is the spec's own
(D17). -/
def Obligations.MapCoordinateScrollsZoomsAndWraps : Prop :=
  ∀ (s : State) (n : LineSnap) (p : Fin 4) (x y : Nat),
    let sx : Int := (s.ctrl0[p.val]).toInt + (n.xscroll p).toInt
    let sy : Int := (s.ctrl0[4 + p.val]).toInt + (n.yscroll p).toInt
    let stepx : Int := 0x100 + ((n.zoom p).extractLsb' 0 8).toInt
    let stepy : Int := 0x100 + ((n.zoom p).extractLsb' 8 8).toInt
    (mapX s n p x : Int) = (sx + (x * stepx) / 256) % (if s.par.extended then 1024 else 512) ∧
    (mapY s n p y : Int) = (sy + (y * stepy) / 256) % 512 ∧
    (0x80 ≤ stepx ∧ stepx ≤ 0x17F ∧ 0x80 ≤ stepy ∧ stepy ≤ 0x17F) ∧
    (n.zoom p = 0#16 → (mapX s n p x : Int) = (sx + x) % (if s.par.extended then 1024 else 512) ∧
      (mapY s n p y : Int) = (sy + y) % 512)

/-- R186: bits 3:0 of the pen mask are set, and bit 4 or 5 is set when its plane is selected and the palette code's bit
0 or 1 is clear. -/
def Obligations.PenMaskClearsPaletteBits : Prop :=
  ∀ tw : Half,
    (∀ i, i < 4 → (penMask tw).getLsbD i = true) ∧
    (penMask tw).getLsbD 4 = (tw.getLsbD 10 && !tw.getLsbD 0) ∧
    (penMask tw).getLsbD 5 = (tw.getLsbD 11 && !tw.getLsbD 1)

/-- R187, R188: the playfield pixel is the masked pen of the cell's tile, mirrored by its flips; it is opaque exactly when
the masked pen is not 0; its index is the palette code above the pen, where OR and addition agree. -/
def Obligations.PlayfieldPixelPutsThePaletteAboveThePen : Prop :=
  ∀ (s : State) (k mx my : Nat),
    let a := cellAddr s.par k (mx / 16) (my / 16)
    let tw := memRead s .pf a
    let ti := memRead s .pf (a + 1)
    let px := if tw.getLsbD 14 then 15 - mx % 16 else mx % 16
    let py := if tw.getLsbD 15 then 15 - my % 16 else my % 16
    let pen := pfPen s.par ti.toNat px py &&& penMask tw
    ((pfPixel s k mx my).isOpaque = true ↔ pen ≠ 0#6) ∧
    (pfPixel s k mx my).blendSel = tw.getLsbD 9 ∧
    (pfPixel s k mx my).index.toNat = (tw.extractLsb' 0 9).toNat * 16 ||| pen.toNat ∧
    (pfPixel s k mx my).index.toNat = (tw.extractLsb' 0 9).toNat * 16 + pen.toNat

/-- R191: the text layer's pixel is the pen of the cell's char tile, mirrored by its flips, under the cell's palette. -/
def Obligations.TextPixelDecodesItsCell : Prop :=
  ∀ (s : State) (x y : Nat),
    let w := memRead s .txt ((y % 512) / 8 * 64 + (x % 512) / 8)
    let px := if w.getLsbD 8 then 7 - x % 8 else x % 8
    let py := if w.getLsbD 15 then 7 - y % 8 else y % 8
    let pen := charPen s (w.extractLsb' 0 8).toNat px py
    ((textPixel s x y).isOpaque = true ↔ pen ≠ 0#4) ∧
    (textPixel s x y).index.toNat = (w.extractLsb' 9 6).toNat * 16 + pen.toNat ∧
    (textPixel s x y).blendSel = false

/-- R195: the pixel layer's pixel takes its pen from the pivot element of its cell and its palette from the text word of R193,
which lies in text RAM: the second half exactly when the wraparound rule selects it. The cell numbering and the vertical scroll
are the spec's own (R192, R194, D19). -/
def Obligations.PixelLayerTakesItsPaletteFromTextRam : Prop :=
  ∀ (s : State) (x y : Nat),
    let so := (s.ctrl1[5]).toNat % 512
    let lx := x % 512
    let ly := (y + so) % 256
    let row := ly / 8 + (if (ly / 8 * 8 + so) % 512 ≥ 256 then 32 else 0)
    let pen := pivPen s (lx / 8 * 32 + ly / 8) (lx % 8) (ly % 8)
    let w := memRead s .txt (row * 64 + lx / 8)
    ((pixPixel s x y).isOpaque = true ↔ pen ≠ 0#4) ∧
    (pixPixel s x y).index.toNat = (w.extractLsb' 9 6).toNat * 16 + pen.toNat ∧
    (pixPixel s x y).blendSel = false ∧
    row * 64 + lx / 8 < 0x1000 ∧ lx / 8 * 32 + ly / 8 < 2048

/-- A text write is what the next sample decodes (R326): after WRTXT of both lanes at the offset of the cell at `(x, y)`,
the text layer's pixel there is that of the new word, its opacity and its index. -/
def Obligations.NextSampleSeesTheTextWrite : Prop :=
  ∀ (s : State) (v : Half) (x y : Nat),
    ∃ t, exec (.wrtxt ((y % 512) / 8 * 64 + (x % 512) / 8) v 3#2) s = .next t ∧
      let px := if v.getLsbD 8 then 7 - x % 8 else x % 8
      let py := if v.getLsbD 15 then 7 - y % 8 else y % 8
      let pen := charPen s (v.extractLsb' 0 8).toNat px py
      ((textPixel t x y).isOpaque = true ↔ pen ≠ 0#4) ∧
      (textPixel t x y).index.toNat = (v.extractLsb' 9 6).toNat * 16 + pen.toNat

/-! ### Sprites and FRAME (43_sprite_rasterizer.md) -/

/-- R212: the list holds, in entry order, the descriptors of exactly the entries that come before the first `END` and
neither skip nor have a scale of 0 (R211, whose skip bit and zero-scale rule are the spec's own, D23). -/
def Obligations.SpriteListKeepsTheScannedEntries : Prop :=
  ∀ spr : Memory, ∃ es : List Nat, buildList spr = es.map (descriptorOf spr) ∧
    es.Pairwise (· < ·) ∧
    ∀ e, e ∈ es ↔ e < 4096 ∧
      (∀ e', e' ≤ e → (readHalf spr (8 * e' + 1)).getLsbD 15 = false) ∧
      (readHalf spr (8 * e + 1)).getLsbD 14 = false ∧
      (readHalf spr (8 * e + 6)).extractLsb' 0 8 ≠ 0#8 ∧
      (readHalf spr (8 * e + 6)).extractLsb' 8 8 ≠ 0#8

/-- R131: the fields of the descriptor of an entry, and its group. -/
def Obligations.DescriptorTakesItsFieldsFromTheEntry : Prop :=
  ∀ (spr : Memory) (e : Nat),
    let w := fun i => readHalf spr (8 * e + i)
    let d := descriptorOf spr e
    d.code.toNat = (if (w 1).getLsbD 0 then 65536 else 0) + (w 0).toNat ∧
    d.color.toNat = (w 2).toNat % 256 ∧
    d.flipX = (w 1).getLsbD 1 ∧ d.flipY = (w 1).getLsbD 2 ∧
    d.prio.toNat = (w 1).toNat / 16 % 16 ∧
    d.x = (w 3).toInt * 256 + ((w 5).toNat % 256 : Nat) ∧
    d.y = (w 4).toInt * 256 + ((w 5).toNat / 256 : Nat) ∧
    d.sx = (w 6).toNat % 256 ∧ d.sy = (w 6).toNat / 256 ∧
    d.group = (w 2).toNat / 64 % 4

/-- R213, R214, R215: the columns and rows a descriptor covers, and that the pen of a covered pixel is that of its texel
`(u, v)` of the tile, in the set `P_SPR_6BPP` names; at scale 0x80 and a whole position the descriptor covers exactly 16
columns. The half-open test and the sampling are the spec's own (D23). -/
def Obligations.CoveredPixelTakesATexelOfTheTile : Prop :=
  ∀ (p : Params) (d : Descriptor) (r c : Nat),
    (d.covers r c = true ↔
      d.x ≤ (c : Int) * 256 ∧ (c : Int) * 256 < d.x + 32 * d.sx ∧
      d.y ≤ (r : Int) * 256 ∧ (r : Int) * 256 < d.y + 32 * d.sy) ∧
    (d.sx ≠ 0 → d.sy ≠ 0 → d.covers r c = true →
      let u0 : Int := ((c : Int) * 256 - d.x) / (2 * d.sx)
      let v0 : Int := ((r : Int) * 256 - d.y) / (2 * d.sy)
      ∃ u v : Nat, u ≤ 15 ∧ v ≤ 15 ∧
        (u : Int) = (if d.flipX then 15 - u0 else u0) ∧ (v : Int) = (if d.flipY then 15 - v0 else v0) ∧
        sprPen p d r c =
          (if p.spr6bpp then sprPenHi p d.code.toNat u v else (sprPenLo p d.code.toNat u v).setWidth 6)) ∧
    (∀ c0 r0 : Nat, d.x = (c0 : Int) * 256 → d.sx = 0x80 → d.y = (r0 : Int) * 256 → d.sy = 0x80 →
      (d.covers r c = true ↔ (c0 ≤ c ∧ c < c0 + 16) ∧ (r0 ≤ r ∧ r < r0 + 16)))

/-- R219: the sprite index is `(color << 4) | pen`, a 12-bit value, and is not 0 when the pen is not 0, so a pixel of 0 means
no sprite pixel. How color and pen combine is the spec's own (D25). -/
def Obligations.SpriteIndexIsNonzero : Prop :=
  ∀ (color : BitVec 8) (pen : BitVec 6),
    (sprIndex color pen).toNat = color.toNat * 16 ||| pen.toNat ∧ (sprIndex color pen).toNat < 4096 ∧
      (pen ≠ 0#6 → sprIndex color pen ≠ 0#16)

/-- FRAME (R210): it completes in every state, changes only the group buffers, the usage masks and the displayed list,
and takes all three from sprite RAM alone (R223); a second FRAME rebuilds the same. -/
def Obligations.FrameRebuildsFromSpriteRamAlone : Prop :=
  ∀ s : State, ∃ t, exec .frame s = .next t ∧
    t = { s with sprbuf := t.sprbuf, usage := t.usage, shown := t.shown } ∧
    t.shown = buildList s.spr ∧
    exec .frame t = .next t ∧
    ∀ s', s'.spr = s.spr → s'.par = s.par →
      ∃ t', exec .frame s' = .next t' ∧ t'.sprbuf = t.sprbuf ∧ t'.usage = t.usage ∧ t'.shown = t.shown

/-- R217: after FRAME a pixel of a group buffer holds the index of the last (LATER_WINS) or the first (EARLIER_WINS)
descriptor of the displayed list that paints it, and 0 when none does. Bit `b` of a usage mask is set exactly when a
descriptor of sub-band `b` covers a pixel of that row, inside the buffer, with a pen that is not 0, and writes it (R41,
R220); under EARLIER_WINS the first such descriptor writes the pixel. The reading of R217's pseudocode, that all of them
set the bit, is the other value of the model's own parameter `usageRule` (log entry 11). -/
def Obligations.FramePixelIsTheWinningSprite : Prop :=
  ∀ (s : State) (g : Fin 4) (y : Nat), s.par.screenW ≤ 512 → y < 256 →
    ∃ t, exec .frame s = .next t ∧
      (∀ x, x < s.par.screenW →
        let ds := t.shown.filter (Descriptor.paints s.par g.val y x)
        let winner := match s.par.sprOverdraw with
          | .laterWins => ds.getLast?
          | .earlierWins => ds.head?
        sprAt t.sprbuf g.val y x =
          (match winner with
            | some d => sprIndex d.color (sprPen s.par d y x)
            | none => 0#16)) ∧
      (∀ b, b < 8 →
        ((usageAt t.usage g.val y).getLsbD b = true ↔
          ∃ d ∈ t.shown, d.prio.toNat / 2 = b ∧ ∃ x < s.par.screenW, Descriptor.paints s.par g.val y x d = true ∧
            (s.par.usageRule = .covered ∨ s.par.sprOverdraw = .laterWins ∨
              (t.shown.filter (Descriptor.paints s.par g.val y x)).head? = some d)))

/-- R323: a write to SPR is not shown by any LINE until a FRAME has come after it. Two states that differ in sprite RAM
alone give the same values over every run with no FRAME (and no RDSPR, which reads it). -/
def Obligations.SpriteRamIsNotShownBeforeAFrame : Prop :=
  ∀ (s t t' : State) (m : Memory), (∀ w ∈ s.stream, isFrameWord w = false ∧ isRdsprWord w = false) →
    s.run = .next t → ({ s with spr := m } : State).run = .next t' → t'.out = t.out

/-! ### LINE (44_line_compositor_merge.md) -/

/-- R240: below `P_VIS_H` a LINE completes and appends the two rows that the loop of R240 gives (`mixLine`: every layer
over the whole line, in the order of R270; then mosaic, R250, and resolve, R253), which are `lineResult`, and each column
of the loop is `columnAcc` (R248). A layer is drawn where its mix word has bit 13 (R246). The pivot slot shows the pixel
layer or the text layer as bit 3 of the pivot control byte says (R137, R245), group `g` its own buffer, slot `p` tilemap
`p` (R189, R247). At `P_VIS_H` or beyond it is refused. That the hidden caches are all that changes besides is the
model's choice (log entry 7). -/
def Obligations.LineReturnsItsRowsAndChangesOnlyTheCaches : Prop :=
  ∀ (s : State) (y : Nat),
    (y < s.par.visH → ∃ t, exec (.line y) s = .next t ∧
      (let n := latch s y
       let acc := mixLine s y
       let shown := fun x => acc.getD (x - x % ((memRead s .lin (y * 128 + 6)).toNat % 16 + 1)) Acc.empty
       acc.length = s.par.screenW ∧
       t = { s with
        out := s.out ++
          [.line ((List.range s.par.screenW).map
              (fun x => resolve s.par (shown x) n.bgPal ((s.ctrl1[7]).getLsbD 0)))
            ((List.range s.par.screenW).map (fun x => priAlp (shown x)))]
        cache := t.cache } ∧
       t.out = s.out ++ [lineResult s y] ∧
       (∀ x < s.par.screenW, acc.getD x Acc.empty = columnAcc s n y x))) ∧
    (s.par.visH ≤ y → RefusedCommand (.line y) s) ∧
    (∀ (n : LineSnap) (x : Nat),
      (∀ l, layerEnabled n l = (n.mix l).getLsbD 13) ∧
      sample s n .piv x y = (if n.pivotCtrl.getLsbD 3 then pixPixel s x y else textPixel s x y) ∧
      (∀ g : Fin 4,
        let v := sprAt s.sprbuf g.val y x
        sample s n (.sp g) x y = { isOpaque := decide (v ≠ 0#16), index := v, blendSel := false }) ∧
      (∀ p : Fin 4, sample s n (.pf p) x y = pfPixel s p.val (mapX s n p x) (mapY s n p y)))

/-- No state that an output reads carries from one LINE to the next (R45): after a LINE, every line returns what it
would have returned before it. -/
def Obligations.LineLeavesEveryLinesResult : Prop :=
  ∀ (s t : State) (y y' : Nat), exec (.line y) s = .next t → lineResult t y' = lineResult s y'

/-- The caches are not architectural (R43), no output reads a usage mask (R41) and the displayed list is seen only
through the buffers (R42): two states that differ in these alone return the same values over every run and end with
the same RAM, banks, buffers and mark. -/
def Obligations.OutputsIgnoreTheHiddenState : Prop :=
  ∀ (s t t' : State) (u : List (Nat × Byte)) (l : List Descriptor) (c : Caches),
    s.run = .next t → ({ s with usage := u, shown := l, cache := c } : State).run = .next t' →
    t' = { t with usage := t'.usage, shown := t'.shown, cache := t'.cache }

/-- After the boot order's FRAME no output is a draw of the sprite buffers (R322): from power-on states that differ in the
draws of the group buffers and usage masks alone, a run whose every LINE comes after a FRAME returns the same values. -/
def Obligations.LinesAfterAFrameIgnoreTheBufferDraws : Prop :=
  ∀ (p : Params) (d : Draws) (b : List (Nat × Half)) (u : List (Nat × Byte)) (ws : List Word) (t t' : State),
    frameBeforeLines ws = true →
    ({ State.powerOn p d with stream := ws } : State).run = .next t →
    ({ State.powerOn p { d with sprbuf := b, usage := u } with stream := ws } : State).run = .next t' →
    t'.out = t.out

/-- R241: the snapshot's fields are the halfwords of block `y` of line RAM at the offsets of R38, and copies of the
two banks. -/
def Obligations.LatchReadsTheBlockOfTheLine : Prop :=
  ∀ (s : State) (y : Nat),
    let w := fun i => memRead s .lin (y * 128 + i)
    let n := latch s y
    (∀ k : Fin 4, n.clipLo k = w k.val ∧ n.mix (.sp k) = w (0x09 + k.val) ∧ n.mix (.pf k) = w (0x0D + k.val) ∧
      n.xscroll k = w (0x11 + k.val) ∧ n.yscroll k = w (0x15 + k.val) ∧ n.zoom k = w (0x19 + k.val)) ∧
    n.clipHi = w 0x04 ∧ n.pivotCtrl = (w 0x05).extractLsb' 0 8 ∧ n.mosaic = w 0x06 ∧ n.bgPal = w 0x07 ∧
    n.mix .piv = w 0x08 ∧ n.ctrl0 = s.ctrl0 ∧ n.ctrl1 = s.ctrl1

/-- R136: the bounds of a clip plane are 9-bit two's complement numbers, -256..255, with the high bits in `CLIP_HI`. -/
def Obligations.ClipBoundsAreNineBitSigned : Prop :=
  ∀ (n : LineSnap) (k : Fin 4),
    clipLeft n k = ((n.clipLo k).toNat % 256 : Nat) - (if n.clipHi.getLsbD k.val then 256 else 0) ∧
    clipRight n k = ((n.clipLo k).toNat / 256 : Nat) - (if n.clipHi.getLsbD (4 + k.val) then 256 else 0) ∧
    -256 ≤ clipLeft n k ∧ clipLeft n k ≤ 255 ∧ -256 ≤ clipRight n k ∧ clipRight n k ≤ 255

/-- R243: a layer with no plane enabled draws at every column; else its enabled planes, each `left <= x <= right` (R242) inverted
by the effective invert bit (R244), all pass under AND, or one passes under OR. The reading of the invert mode is the spec's
own (D31). -/
def Obligations.ClipPassCombinesTheEnabledPlanes : Prop :=
  ∀ (p : Params) (n : LineSnap) (l : Layer) (x : Nat),
    let m := n.mix l
    let test := fun k : Fin 4 =>
      decide (clipLeft n k ≤ (x : Int) ∧ (x : Int) ≤ clipRight n k) != (m.getLsbD (4 + k.val) != m.getLsbD 12)
    clipPass p n l x = true ↔
      ((∀ k : Fin 4, m.getLsbD (8 + k.val) = false) ∨
        (p.clipCombine = .all ∧ ∀ k : Fin 4, m.getLsbD (8 + k.val) = true → test k = true) ∨
        (p.clipCombine = .any ∧ ∃ k : Fin 4, m.getLsbD (8 + k.val) = true ∧ test k = true))

/-- R250: the accumulator shown at a column is that of the first column of its run of `N = m + 1`, runs starting at column 0; so a
run shows one colour and one trace byte, and `N = 1` changes nothing. The encoding of the factor is the spec's own (D36). -/
def Obligations.MosaicReplicatesTheFirstColumn : Prop :=
  ∀ (s : State) (y x x' : Nat),
    let n := (memRead s .lin (y * 128 + 6)).toNat % 16 + 1
    finalAcc s y x = columnAcc s (latch s y) y (x - x % n) ∧
    (x / n = x' / n → lineColor s y x = lineColor s y x' ∧ lineTrace s y x = lineTrace s y x') ∧
    (n = 1 → finalAcc s y x = columnAcc s (latch s y) y x)

/-- R251: where no layer supplies an opaque pixel at the first column of the mosaic run (R250), the column shows the background
index of the line at the palette depth of the banks, with the background trace byte (R252). -/
def Obligations.UnsuppliedColumnShowsTheBackground : Prop :=
  ∀ (s : State) (y x : Nat),
    let n := latch s y
    (∀ l, supplies s n y (x - x % mosaicFactor n) l = false) →
      lineColor s y x = paletteColor s.par ((s.ctrl1[7]).getLsbD 0) (memRead s .lin (y * 128 + 7)) ∧
      lineTrace s y x = 0x80#8

/-- R252: the bits of the trace byte, from the accumulator of the column; the format is the spec's own (D39). -/
def Obligations.TraceByteReportsTheAccumulator : Prop :=
  ∀ a : Acc,
    (∀ i, i < 4 → (priAlp a).getLsbD i = (a.has && a.prio.getLsbD i)) ∧
    (priAlp a).getLsbD 4 = a.blended ∧ (priAlp a).getLsbD 5 = a.dst ∧
    (priAlp a).getLsbD 6 = false ∧ (priAlp a).getLsbD 7 = !a.has

/-- R173: a LINE leaves every element it samples clean, with the decode of the RAM: for each layer that reaches column
`x`, the cell and the element of its pixel there. That an element counts as sampled at every column its layer reaches
(log entry 7) and the key of the pixel-layer cells (log entry 6) are the model's choices. -/
def Obligations.LineDecodesTheElementsItSamples : Prop :=
  ∀ (s t : State) (y x : Nat), s.CacheCoherent → exec (.line y) s = .next t → y < s.par.visH → x < s.par.screenW →
    let n := latch s y
    (∀ p : Fin 4, reaches s n (.pf p) x = true →
      let a := cellAddr s.par p.val (mapX s n p x / 16) (mapY s n p y / 16)
      Sparse.find? t.cache.pf (a / 2) = some (pfCellAt s.pf a)) ∧
    (reaches s n .piv x = true → pixSel n = false →
      let w := memRead s .txt (textAddr x y)
      Sparse.find? t.cache.txt (textAddr x y) = some (decodeTextCell w) ∧
      Sparse.find? t.cache.chr (w.toNat % 256) = some (elementPens s.par s.chr (w.toNat % 256))) ∧
    (reaches s n .piv x = true → pixSel n = true →
      Sparse.find? t.cache.pix (pixAttrAt (pixYOff s.ctrl1) x y) =
        some (decodePixPal (memRead s .txt (pixAttrAt (pixYOff s.ctrl1) x y))) ∧
      Sparse.find? t.cache.piv (pixElement (pixYOff s.ctrl1) x y) =
        some (elementPens s.par s.piv (pixElement (pixYOff s.ctrl1) x y)))

/-! ### Priority mux (45_pixel_priority_mux.md) -/

/-- R270: the order is the nine layers by ascending `(PRIO, rank)`, strictly, so it is total; with equal priorities it is
`P_TIE_ORDER` itself. -/
def Obligations.LayerOrderAscendsByPriorityAndTieOrder : Prop :=
  ∀ (p : Params) (n : LineSnap), p.Ok →
    (layerOrder p n).Perm Layer.all ∧
    (layerOrder p n).Pairwise (fun a b =>
      ((n.mix a).toNat % 16 < (n.mix b).toNat % 16) ∨
      ((n.mix a).toNat % 16 = (n.mix b).toNat % 16 ∧ p.tieOrder.idxOf a < p.tieOrder.idxOf b)) ∧
    ((∀ a b : Layer, (n.mix a).toNat % 16 = (n.mix b).toNat % 16) → layerOrder p n = p.tieOrder)

/-- R273: the new pixel becomes the top, and is blended with the old top exactly when it has the source role (R285) and the old
top exists and has the destination role (R286, R287); `below` is then the old top's own index, else 0. -/
def Obligations.MuxUpdateBlendsWithADestinationTop : Prop :=
  ∀ (n : LineSnap) (a : Acc) (l : Layer) (px : Pixel),
    let r := muxUpdate n a l px
    r.has = true ∧ r.idx = px.index ∧ r.prio.toNat = (n.mix l).toNat % 16 ∧ r.dst = (n.mix l).getLsbD 15 ∧
    (r.blended = true ↔
      (n.mix l).getLsbD 14 = true ∧ (l.kind ≠ .playfield ∨ px.blendSel = true) ∧ a.has = true ∧ a.dst = true) ∧
    r.below = (if r.blended then a.idx else 0#16)

/-- R292, R275: only the layers that supply an opaque pixel at a column matter to it; the top is the highest of them in the
order of R270, and it is blended with the next highest alone, when it has the source role and that one the destination
role. With no supplying layer the column is empty. -/
def Obligations.ColumnShowsTheHighestSupplyingLayer : Prop :=
  ∀ (s : State) (n : LineSnap) (y x : Nat), s.par.Ok →
    ((∀ l, supplies s n y x l = false) → columnAcc s n y x = Acc.empty) ∧
    (∀ top, IsTopLayer s n y x top →
      let a := columnAcc s n y x
      let px := sample s n top x y
      a.has = true ∧ a.idx = px.index ∧ a.prio = layerPrio n top ∧ a.dst = dstRole n top ∧
      (a.blended = true ↔ srcRole n top px = true ∧
        ∃ under, IsUnderLayer s n y x top under ∧ dstRole n under = true) ∧
      (∀ under, IsUnderLayer s n y x top under → a.blended = true →
        a.below = (sample s n under x y).index))

/-- R276: of two layers that both supply a pixel at a column, the one of lower priority is never the top: the top is a
supplying layer that is the other or is above it. Before mosaic, and in the output where the column starts a run. -/
def Obligations.LowerPriorityLayerIsNeverTheTop : Prop :=
  ∀ (s : State) (y x : Nat) (l1 l2 : Layer), s.par.Ok →
    let n := latch s y
    supplies s n y x l1 = true → supplies s n y x l2 = true → (layerPrio n l1).toNat < (layerPrio n l2).toNat →
    ∃ top, top ≠ l1 ∧ supplies s n y x top = true ∧ notAbove s.par n l2 top = true ∧
      (columnAcc s n y x).has = true ∧ (columnAcc s n y x).idx = (sample s n top x y).index ∧
      (columnAcc s n y x).prio = layerPrio n top ∧
      (x % mosaicFactor n = 0 → finalAcc s y x = columnAcc s n y x)

/-! ### Blender (46_alpha_blender_2op.md) -/

/-- R291, R251, R253: the colour of a column is that of its accumulator after mosaic: the background entry where it is
empty, its own entry where it is not blended, the blend of its two entries where it is, all at the palette depth of the
line (R254). -/
def Obligations.ColumnColourResolvesItsAccumulator : Prop :=
  ∀ (s : State) (y x : Nat),
    let a := finalAcc s y x
    let c := fun i => Sparse.get ⟨0#8, 0#8, 0#8⟩ s.par.palette ((if (s.ctrl1[7]).getLsbD 0 then 65536 else 0) + i)
    lineColor s y x =
      (if a.has = false then c (memRead s .lin (y * 128 + 7)).toNat
       else if a.blended = false then c a.idx.toNat
       else blend s.par (c a.idx.toNat) (c a.below.toNat))

/-- R289: the blend equation, channel by channel; with the default weights (R290) the result lies between the operands. -/
def Obligations.BlendIsTheWeightedSumInEighths : Prop :=
  (∀ (p : Params) (t d : Rgb),
    (blend p t d).r.toNat = min 255 ((t.r.toNat * p.blendKs + d.r.toNat * p.blendKd) / 8) ∧
    (blend p t d).g.toNat = min 255 ((t.g.toNat * p.blendKs + d.g.toNat * p.blendKd) / 8) ∧
    (blend p t d).b.toNat = min 255 ((t.b.toNat * p.blendKs + d.b.toNat * p.blendKd) / 8)) ∧
  (∀ (p : Params) (t d : Rgb), p.blendKs = 4 → p.blendKd = 4 →
    (blend p t d).r.toNat = (t.r.toNat + d.r.toNat) / 2 ∧ (blend p t d).g.toNat = (t.g.toNat + d.g.toNat) / 2 ∧
    (blend p t d).b.toNat = (t.b.toNat + d.b.toNat) / 2)

/-! ### Assembler (30_encoding.md A.4) -/

/-- R118: the pseudo-instructions expand as tabled, for the words the block sees. -/
def Obligations.PseudoInstructionsExpandAsTabled : Prop :=
  ∀ (p : Params),
    (∀ k col row attr idx, (Pseudo.setpf k col row attr idx).expand p =
      [.wrpf ((if p.extended then k * 0x1000 + 2 * (row * 64 + col) else k * 0x800 + 2 * (row * 32 + col))) attr 3#2,
       .wrpf ((if p.extended then k * 0x1000 + 2 * (row * 64 + col) else k * 0x800 + 2 * (row * 32 + col)) + 1)
         idx 3#2]) ∧
    (∀ col row w, (Pseudo.settxt col row w).expand p = [.wrtxt (row * 64 + col) w 3#2]) ∧
    (∀ y off v, (Pseudo.setln y off v).expand p = [.wrlin (y * 128 + off) v 3#2]) ∧
    (∀ e ws, (Pseudo.setspr e ws).expand p =
      [.wrspr (8 * e) ws[0] 3#2, .wrspr (8 * e + 1) ws[1] 3#2, .wrspr (8 * e + 2) ws[2] 3#2,
       .wrspr (8 * e + 3) ws[3] 3#2, .wrspr (8 * e + 4) ws[4] 3#2, .wrspr (8 * e + 5) ws[5] 3#2,
       .wrspr (8 * e + 6) ws[6] 3#2, .wrspr (8 * e + 7) ws[7] 3#2]) ∧
    (∀ r a b, (Pseudo.wrbhi r a b).expand p = [writeInstr r a (BitVec.ofNat 16 (b.toNat * 256)) 2#2]) ∧
    (∀ r a b, (Pseudo.wrblo r a b).expand p = [writeInstr r a (BitVec.ofNat 16 b.toNat) 1#2]) ∧
    (∀ r a n v, (Pseudo.fill r a n v).expand p = (List.range n).map (fun i => writeInstr r (a + i) v 3#2)) ∧
    (∀ y, (Pseudo.clrline y).expand p = (List.range 128).map (fun i => .wrlin (y * 128 + i) 0#16 3#2))
end

