-- ==== Sys2Proof/Laws/Sparse.lean ====
section
/-! SUPPORT. The laws of sparse tables: read after write, and that every operation keeps the canonical form. -/

namespace Sys2Proof.Machine

variable {β : Type}

/-! ### Finding -/

@[simp] theorem Sparse.find?_nil (k : Nat) : Sparse.find? ([] : List (Nat × β)) k = none := rfl

theorem Sparse.find?_cons (j : Nat) (v : β) (m : List (Nat × β)) (k : Nat) :
    Sparse.find? ((j, v) :: m) k = if j = k then some v else Sparse.find? m k := rfl

@[simp] theorem Sparse.find?_put_self (m : List (Nat × β)) (k : Nat) (v : β) :
    Sparse.find? (Sparse.put m k v) k = some v := by
  induction m with
  | nil => simp [Sparse.put, Sparse.find?]
  | cons e m ih =>
    obtain ⟨j, w⟩ := e
    simp only [Sparse.put]
    split
    · simp [Sparse.find?]
    · split
      · simp [Sparse.find?]
      · rename_i h
        simp [Sparse.find?, Ne.symm h, ih]

theorem Sparse.find?_put_ne (m : List (Nat × β)) {k k' : Nat} (v : β) (h : k' ≠ k) :
    Sparse.find? (Sparse.put m k v) k' = Sparse.find? m k' := by
  induction m with
  | nil => simp [Sparse.put, Sparse.find?, Ne.symm h]
  | cons e m ih =>
    obtain ⟨j, w⟩ := e
    simp only [Sparse.put]
    split
    · simp [Sparse.find?, Ne.symm h]
    · split
      · rename_i hk
        subst hk
        simp [Sparse.find?, Ne.symm h]
      · simp [Sparse.find?, ih]

theorem Sparse.find?_put (m : List (Nat × β)) (k k' : Nat) (v : β) :
    Sparse.find? (Sparse.put m k v) k' = if k' = k then some v else Sparse.find? m k' := by
  split
  · rename_i h; subst h; simp
  · rename_i h; exact Sparse.find?_put_ne m v h

theorem Sparse.find?_del (m : List (Nat × β)) (k k' : Nat) :
    Sparse.find? (Sparse.del m k) k' = if k' = k then none else Sparse.find? m k' := by
  induction m with
  | nil => simp [Sparse.del]
  | cons e m ih =>
    obtain ⟨j, w⟩ := e
    by_cases hj : j = k
    · subst hj
      have : Sparse.del ((j, w) :: m) j = Sparse.del m j := by simp [Sparse.del]
      rw [this, ih, Sparse.find?_cons]
      by_cases h : k' = j
      · simp [h]
      · simp [h, Ne.symm h]
    · have : Sparse.del ((j, w) :: m) k = (j, w) :: Sparse.del m k := by simp [Sparse.del, hj]
      rw [this, Sparse.find?_cons, Sparse.find?_cons, ih]
      by_cases h : j = k'
      · subst h; simp [hj]
      · simp [h]

theorem Sparse.find?_fill (m : List (Nat × β)) (k k' : Nat) (v : β) :
    Sparse.find? (Sparse.fill m k v) k' =
      if k' = k then some ((Sparse.find? m k).getD v) else Sparse.find? m k' := by
  unfold Sparse.fill
  by_cases h : k' = k
  · subst h
    cases hf : Sparse.find? m k' <;> simp [hf]
  · rw [if_neg h]
    split
    · rfl
    · exact Sparse.find?_put_ne m v h

/-! ### Reading -/

@[simp] theorem Sparse.get_nil (d : β) (k : Nat) : Sparse.get d [] k = d := rfl

@[simp] theorem Sparse.get_set_self [DecidableEq β] (d : β) (m : List (Nat × β)) (k : Nat) (v : β) :
    Sparse.get d (Sparse.set d m k v) k = v := by
  unfold Sparse.get Sparse.set
  split
  · rename_i h; simp [Sparse.find?_del, h]
  · simp

theorem Sparse.get_set_ne [DecidableEq β] (d : β) (m : List (Nat × β)) {k k' : Nat} (v : β)
    (h : k' ≠ k) : Sparse.get d (Sparse.set d m k v) k' = Sparse.get d m k' := by
  unfold Sparse.get Sparse.set
  split
  · rw [Sparse.find?_del, if_neg h]
  · rw [Sparse.find?_put_ne m v h]

theorem Sparse.get_set [DecidableEq β] (d : β) (m : List (Nat × β)) (k k' : Nat) (v : β) :
    Sparse.get d (Sparse.set d m k v) k' = if k' = k then v else Sparse.get d m k' := by
  split
  · rename_i h; subst h; simp
  · rename_i h; exact Sparse.get_set_ne d m v h

/-! ### Membership -/

theorem Sparse.mem_put {m : List (Nat × β)} {k : Nat} {v : β} {e : Nat × β}
    (h : e ∈ Sparse.put m k v) : e = (k, v) ∨ e ∈ m := by
  induction m with
  | nil => simpa [Sparse.put] using h
  | cons a m ih =>
    obtain ⟨j, w⟩ := a
    simp only [Sparse.put] at h
    split at h
    · simpa using h
    · split at h
      · rcases List.mem_cons.1 h with h | h
        · exact .inl h
        · exact .inr (List.mem_cons_of_mem _ h)
      · rcases List.mem_cons.1 h with h | h
        · exact .inr (h ▸ List.mem_cons_self)
        · rcases ih h with h | h
          · exact .inl h
          · exact .inr (List.mem_cons_of_mem _ h)

theorem Sparse.mem_del {m : List (Nat × β)} {k : Nat} {e : Nat × β} :
    e ∈ Sparse.del m k ↔ e ∈ m ∧ e.1 ≠ k := by simp [Sparse.del]

theorem Sparse.mem_fill {m : List (Nat × β)} {k : Nat} {v : β} {e : Nat × β}
    (h : e ∈ Sparse.fill m k v) : e = (k, v) ∨ e ∈ m := by
  unfold Sparse.fill at h
  split at h
  · exact .inr h
  · exact Sparse.mem_put h

theorem Sparse.mem_set [DecidableEq β] {d : β} {m : List (Nat × β)} {k : Nat} {v : β} {e : Nat × β}
    (h : e ∈ Sparse.set d m k v) : (e = (k, v) ∧ v ≠ d) ∨ e ∈ m := by
  unfold Sparse.set at h
  split at h
  · exact .inr (Sparse.mem_del.1 h).1
  · rename_i hv
    rcases Sparse.mem_put h with h | h
    · exact .inl ⟨h, hv⟩
    · exact .inr h

theorem Sparse.mem_of_find? {m : List (Nat × β)} {k : Nat} {v : β} (h : Sparse.find? m k = some v) :
    (k, v) ∈ m := by
  induction m with
  | nil => simp at h
  | cons e m ih =>
    obtain ⟨j, w⟩ := e
    rw [Sparse.find?_cons] at h
    split at h
    · rename_i hj; subst hj; cases h; exact List.mem_cons_self
    · exact List.mem_cons_of_mem _ (ih h)

/-! ### Sorted tables -/

theorem Sparse.sorted_cons {j : Nat} {v : β} {m : List (Nat × β)} :
    Sparse.sorted ((j, v) :: m) = true ↔ (∀ e ∈ m, j < e.1) ∧ Sparse.sorted m = true := by
  simp [Sparse.sorted]

theorem Sparse.sorted_put {m : List (Nat × β)} (k : Nat) (v : β) (h : Sparse.sorted m = true) :
    Sparse.sorted (Sparse.put m k v) = true := by
  induction m with
  | nil => simp [Sparse.put, Sparse.sorted]
  | cons a m ih =>
    obtain ⟨j, w⟩ := a
    obtain ⟨h1, h2⟩ := Sparse.sorted_cons.1 h
    simp only [Sparse.put]
    split
    · rename_i hk
      refine Sparse.sorted_cons.2 ⟨fun e he => ?_, h⟩
      rcases List.mem_cons.1 he with he | he
      · subst he; exact hk
      · exact lt_trans hk (h1 e he)
    · split
      · rename_i hk
        subst hk
        exact Sparse.sorted_cons.2 ⟨h1, h2⟩
      · refine Sparse.sorted_cons.2 ⟨fun e he => ?_, ih h2⟩
        rcases Sparse.mem_put he with he | he
        · subst he; simp only; omega
        · exact h1 e he

theorem Sparse.sorted_del {m : List (Nat × β)} (k : Nat) (h : Sparse.sorted m = true) :
    Sparse.sorted (Sparse.del m k) = true := by
  induction m with
  | nil => simp [Sparse.del, Sparse.sorted]
  | cons a m ih =>
    obtain ⟨j, w⟩ := a
    obtain ⟨h1, h2⟩ := Sparse.sorted_cons.1 h
    by_cases hj : j = k
    · have : Sparse.del ((j, w) :: m) k = Sparse.del m k := by simp [Sparse.del, hj]
      rw [this]; exact ih h2
    · have : Sparse.del ((j, w) :: m) k = (j, w) :: Sparse.del m k := by simp [Sparse.del, hj]
      rw [this]
      exact Sparse.sorted_cons.2 ⟨fun e he => h1 e (Sparse.mem_del.1 he).1, ih h2⟩

theorem Sparse.sorted_fill {m : List (Nat × β)} (k : Nat) (v : β) (h : Sparse.sorted m = true) :
    Sparse.sorted (Sparse.fill m k v) = true := by
  unfold Sparse.fill
  split
  · exact h
  · exact Sparse.sorted_put k v h

theorem Sparse.sorted_set [DecidableEq β] {d : β} {m : List (Nat × β)} (k : Nat) (v : β)
    (h : Sparse.sorted m = true) : Sparse.sorted (Sparse.set d m k v) = true := by
  unfold Sparse.set
  split
  · exact Sparse.sorted_del k h
  · exact Sparse.sorted_put k v h

/-! ### The canonical form -/

theorem Sparse.canonical_iff [DecidableEq β] {d : β} {n : Nat} {m : List (Nat × β)} :
    Sparse.canonical d n m = true ↔
      Sparse.sorted m = true ∧ ∀ e ∈ m, e.1 < n ∧ e.2 ≠ d := by
  simp [Sparse.canonical]

theorem Sparse.canonical_nil [DecidableEq β] (d : β) (n : Nat) :
    Sparse.canonical d n ([] : List (Nat × β)) = true := rfl

theorem Sparse.canonical_set [DecidableEq β] {d : β} {n : Nat} {m : List (Nat × β)} {k : Nat} {v : β}
    (h : Sparse.canonical d n m = true) (hk : k < n) :
    Sparse.canonical d n (Sparse.set d m k v) = true := by
  rw [Sparse.canonical_iff] at h ⊢
  refine ⟨Sparse.sorted_set k v h.1, fun e he => ?_⟩
  rcases Sparse.mem_set he with ⟨he, hv⟩ | he
  · subst he; exact ⟨hk, hv⟩
  · exact h.2 e he

/-- In a sorted table what is listed is what is found. -/
theorem Sparse.find?_of_mem {m : List (Nat × β)} (hs : Sparse.sorted m = true) {k : Nat} {v : β}
    (h : (k, v) ∈ m) : Sparse.find? m k = some v := by
  induction m with
  | nil => simp at h
  | cons e m ih =>
    obtain ⟨j, w⟩ := e
    obtain ⟨h1, h2⟩ := Sparse.sorted_cons.1 hs
    rw [Sparse.find?_cons]
    rcases List.mem_cons.1 h with h | h
    · cases h; simp
    · have := h1 _ h
      have hj : j ≠ k := by simp only at this; omega
      simp [hj, ih h2 h]

/-- In a sorted table a key that is not listed is not found. -/
theorem Sparse.find?_eq_none_of_lt {m : List (Nat × β)} {k : Nat} (h : ∀ e ∈ m, k < e.1) :
    Sparse.find? m k = none := by
  cases hf : Sparse.find? m k with
  | none => rfl
  | some v => exact absurd (h _ (Sparse.mem_of_find? hf)) (lt_irrefl _)

/-- Writing what is already listed changes nothing. -/
theorem Sparse.put_of_find? {m : List (Nat × β)} (hs : Sparse.sorted m = true) {k : Nat} {v : β}
    (h : Sparse.find? m k = some v) : Sparse.put m k v = m := by
  induction m with
  | nil => simp at h
  | cons e m ih =>
    obtain ⟨j, w⟩ := e
    obtain ⟨h1, h2⟩ := Sparse.sorted_cons.1 hs
    rw [Sparse.find?_cons] at h
    simp only [Sparse.put]
    by_cases hj : j = k
    · subst hj; simp at h; subst h; simp
    · simp only [hj, if_false] at h
      have hlt := h1 _ (Sparse.mem_of_find? h)
      simp only at hlt
      rw [if_neg (by omega), if_neg (fun hk => hj hk.symm), ih h2 h]

theorem Sparse.del_of_find?_none {m : List (Nat × β)} {k : Nat} (h : Sparse.find? m k = none) :
    Sparse.del m k = m := by
  induction m with
  | nil => rfl
  | cons e m ih =>
    obtain ⟨j, w⟩ := e
    rw [Sparse.find?_cons] at h
    by_cases hj : j = k
    · simp [hj] at h
    · simp only [hj, if_false] at h
      have : Sparse.del ((j, w) :: m) k = (j, w) :: Sparse.del m k := by simp [Sparse.del, hj]
      rw [this, ih h]

/-- Setting a key to the value it has changes nothing: equal tables are equal lists. -/
theorem Sparse.set_get [DecidableEq β] {d : β} {n : Nat} {m : List (Nat × β)}
    (h : Sparse.canonical d n m = true) (k : Nat) : Sparse.set d m k (Sparse.get d m k) = m := by
  rw [Sparse.canonical_iff] at h
  unfold Sparse.set Sparse.get
  cases hf : Sparse.find? m k with
  | none => simp [Sparse.del_of_find?_none hf]
  | some v =>
    have hv : v ≠ d := (h.2 _ (Sparse.mem_of_find? hf)).2
    simp [hv, Sparse.put_of_find? h.1 hf]

/-- Two canonical tables that read the same everywhere are equal. -/
theorem Sparse.ext_get [DecidableEq β] {d : β} {n n' : Nat} {m m' : List (Nat × β)}
    (h : Sparse.canonical d n m = true) (h' : Sparse.canonical d n' m' = true)
    (hg : ∀ k, Sparse.get d m k = Sparse.get d m' k) : m = m' := by
  rw [Sparse.canonical_iff] at h h'
  have hf : ∀ k, Sparse.find? m k = Sparse.find? m' k := by
    intro k
    have hk := hg k
    unfold Sparse.get at hk
    cases h1 : Sparse.find? m k with
    | none =>
      cases h2 : Sparse.find? m' k with
      | none => rfl
      | some v => rw [h1, h2] at hk; exact absurd hk.symm (h'.2 _ (Sparse.mem_of_find? h2)).2
    | some v =>
      cases h2 : Sparse.find? m' k with
      | none => rw [h1, h2] at hk; exact absurd hk (h.2 _ (Sparse.mem_of_find? h1)).2
      | some w => rw [h1, h2] at hk; simp only [Option.getD_some] at hk; rw [hk]
  clear hg
  have key : ∀ (m m' : List (Nat × β)), Sparse.sorted m = true → Sparse.sorted m' = true →
      (∀ k, Sparse.find? m k = Sparse.find? m' k) → m = m' := by
    intro m
    induction m with
    | nil =>
      intro m' _ _ hf
      cases m' with
      | nil => rfl
      | cons e m' => have := hf e.1; obtain ⟨j, w⟩ := e; simp [Sparse.find?_cons] at this
    | cons e m ih =>
      obtain ⟨j, w⟩ := e
      intro m' hs hs' hf
      cases m' with
      | nil => have := hf j; simp [Sparse.find?_cons] at this
      | cons e' m' =>
        obtain ⟨j', w'⟩ := e'
        obtain ⟨a1, a2⟩ := Sparse.sorted_cons.1 hs
        obtain ⟨b1, b2⟩ := Sparse.sorted_cons.1 hs'
        have hjj : j = j' := by
          rcases lt_trichotomy j j' with hlt | heq | hgt
          · have := hf j
            rw [Sparse.find?_cons, Sparse.find?_cons, if_pos rfl, if_neg (by omega),
              Sparse.find?_eq_none_of_lt (fun e he => lt_trans hlt (b1 e he))] at this
            simp at this
          · exact heq
          · have := hf j'
            rw [Sparse.find?_cons, Sparse.find?_cons, if_pos rfl, if_neg (by omega),
              Sparse.find?_eq_none_of_lt (fun e he => lt_trans hgt (a1 e he))] at this
            simp at this
        subst hjj
        have hw : w = w' := by simpa [Sparse.find?_cons] using hf j
        subst hw
        rw [ih m' a2 b2]
        intro k
        have := hf k
        rw [Sparse.find?_cons, Sparse.find?_cons] at this
        by_cases hk : j = k
        · subst hk
          rw [Sparse.find?_eq_none_of_lt a1, Sparse.find?_eq_none_of_lt b1]
        · simpa [hk] using this
  exact key m m' h.1 h'.1 hf

end Sys2Proof.Machine
end

