-- ==== Sys2Proof/Laws/Memory.lean ====
section
/-! SUPPORT. The laws of memory: read after write by bytes and halfwords, and that a write keeps the canonical
form (R91). -/

namespace Sys2Proof.Machine

@[simp] theorem readByte_writeByte_self (m : Memory) (a : Nat) (v : Byte) :
    readByte (writeByte m a v) a = v := Sparse.get_set_self _ _ _ _

theorem readByte_writeByte_ne (m : Memory) {a b : Nat} (v : Byte) (h : b ≠ a) :
    readByte (writeByte m a v) b = readByte m b := Sparse.get_set_ne _ _ _ h

theorem readByte_writeByte (m : Memory) (a b : Nat) (v : Byte) :
    readByte (writeByte m a v) b = if b = a then v else readByte m b := Sparse.get_set _ _ _ _ _

theorem half_of_bytes (v : Half) : (v.extractLsb' 8 8 ++ v.extractLsb' 0 8 : BitVec 16) = v := by
  apply BitVec.eq_of_getLsbD_eq
  intro i hi
  rw [BitVec.getLsbD_append, BitVec.getLsbD_extractLsb', BitVec.getLsbD_extractLsb']
  by_cases h : i < 8
  · simp [h]
  · have : i - 8 < 8 := by omega
    simp [h, this, show 8 + (i - 8) = i by omega]

@[simp] theorem readHalf_writeHalf_self (m : Memory) (a : Nat) (v : Half) :
    readHalf (writeHalf m a v) a = v := by
  unfold readHalf writeHalf
  rw [readByte_writeByte_ne _ _ (by omega : 2 * a ≠ 2 * a + 1)]
  simp [half_of_bytes]

theorem readHalf_writeHalf_ne (m : Memory) {a b : Nat} (v : Half) (h : b ≠ a) :
    readHalf (writeHalf m a v) b = readHalf m b := by
  unfold readHalf writeHalf
  rw [readByte_writeByte_ne _ _ (by omega), readByte_writeByte_ne _ _ (by omega),
    readByte_writeByte_ne _ _ (by omega), readByte_writeByte_ne _ _ (by omega)]

theorem readHalf_writeHalf (m : Memory) (a b : Nat) (v : Half) :
    readHalf (writeHalf m a v) b = if b = a then v else readHalf m b := by
  split
  · rename_i h; subst h; simp
  · rename_i h; exact readHalf_writeHalf_ne m v h

/-- A halfword write leaves every byte but its two. -/
theorem readByte_writeHalf_ne (m : Memory) {a b : Nat} (v : Half) (h0 : b ≠ 2 * a) (h1 : b ≠ 2 * a + 1) :
    readByte (writeHalf m a v) b = readByte m b := by
  unfold writeHalf
  rw [readByte_writeByte_ne _ _ h1, readByte_writeByte_ne _ _ h0]

theorem Memory.wf_writeByte {m : Memory} {n a : Nat} (v : Byte) (h : Memory.wf m n = true)
    (ha : a < 2 * n) : Memory.wf (writeByte m a v) n = true := Sparse.canonical_set h ha

/-- Every memory operation keeps the canonical form. -/
theorem Memory.wf_writeHalf {m : Memory} {n a : Nat} (v : Half) (h : Memory.wf m n = true)
    (ha : a < n) : Memory.wf (writeHalf m a v) n = true :=
  Memory.wf_writeByte _ (Memory.wf_writeByte _ h (by omega)) (by omega)

theorem Memory.wf_nil (n : Nat) : Memory.wf [] n = true := rfl

theorem readHalf_hi (m : Memory) (a : Nat) : (readHalf m a).extractLsb' 8 8 = readByte m (2 * a) := by
  apply BitVec.eq_of_getLsbD_eq
  intro i hi
  rw [BitVec.getLsbD_extractLsb', readHalf, BitVec.getLsbD_append]
  simp [hi, show ¬ 8 + i < 8 by omega]

theorem readHalf_lo (m : Memory) (a : Nat) : (readHalf m a).extractLsb' 0 8 = readByte m (2 * a + 1) := by
  apply BitVec.eq_of_getLsbD_eq
  intro i hi
  rw [BitVec.getLsbD_extractLsb', readHalf, BitVec.getLsbD_append]
  simp [hi]

/-- Writing back what a halfword holds leaves an equal memory. -/
theorem writeHalf_readHalf {m : Memory} {n : Nat} (h : Memory.wf m n = true) (a : Nat) :
    writeHalf m a (readHalf m a) = m := by
  unfold writeHalf
  rw [readHalf_hi, readHalf_lo]
  have e1 : writeByte m (2 * a) (readByte m (2 * a)) = m := Sparse.set_get h _
  rw [e1]
  exact Sparse.set_get h _

/-- A bit of the merged halfword: the data's where its lane is enabled, the old one's elsewhere (R91). -/
theorem laneMerge_getLsbD (old v : Half) (ln : BitVec 2) {i : Nat} (hi : i < 16) :
    (laneMerge old v ln).getLsbD i =
      if ln.getLsbD (i / 8) then v.getLsbD i else old.getLsbD i := by
  have hf : (0xFFFF#16) = BitVec.allOnes 16 := by decide
  have h1 : ∀ i < 16, (0xFF00#16).getLsbD i = decide (8 ≤ i) := by decide
  have h0 : ∀ i < 16, (0x00FF#16).getLsbD i = decide (i < 8) := by decide
  unfold laneMerge laneMask
  rw [hf]
  simp only [BitVec.getLsbD_or, BitVec.getLsbD_and, BitVec.getLsbD_xor, BitVec.getLsbD_allOnes, hi,
    decide_true, Bool.true_xor]
  by_cases h8 : i < 8
  · have : i / 8 = 0 := by omega
    rw [this]
    cases e1 : ln.getLsbD 1 <;> cases e0 : ln.getLsbD 0 <;>
      simp [h1 i hi, h0 i hi, h8, show ¬ 8 ≤ i by omega]
  · have : i / 8 = 1 := by omega
    rw [this]
    cases e1 : ln.getLsbD 1 <;> cases e0 : ln.getLsbD 0 <;>
      simp [h1 i hi, h0 i hi, h8, show 8 ≤ i by omega]

/-- A write with no lane keeps the halfword. -/
theorem laneMerge_none (old v : Half) : laneMerge old v 0#2 = old := by
  apply BitVec.eq_of_getLsbD_eq
  intro i hi
  simp [laneMerge_getLsbD _ _ _ hi]

/-- A write with both lanes stores the data. -/
theorem laneMerge_both (old v : Half) : laneMerge old v 3#2 = v := by
  apply BitVec.eq_of_getLsbD_eq
  intro i hi
  have h : ∀ i < 16, (3#2).getLsbD (i / 8) = true := by decide
  rw [laneMerge_getLsbD _ _ _ hi, h i hi, if_pos rfl]

/-- Merging the merged halfword again changes nothing. -/
theorem laneMerge_idem (old v : Half) (ln : BitVec 2) :
    laneMerge (laneMerge old v ln) v ln = laneMerge old v ln := by
  apply BitVec.eq_of_getLsbD_eq
  intro i hi
  rw [laneMerge_getLsbD _ _ _ hi, laneMerge_getLsbD _ _ _ hi]
  split <;> rfl

end Sys2Proof.Machine
end

