-- ==== Sys2Proof/Laws/State.lean ====
section
/-! SUPPORT. One lemma per field per named update of State, so that no proof unfolds a record update. -/

namespace Sys2Proof.Machine

/-! ### `State.setMem` -/

@[simp] theorem State.setMem_par (s : State) (r : Region) (m : Memory) : (s.setMem r m).par = s.par := by
  cases r <;> rfl

@[simp] theorem State.setMem_ctrl0 (s : State) (r : Region) (m : Memory) : (s.setMem r m).ctrl0 = s.ctrl0 := by
  cases r <;> rfl

@[simp] theorem State.setMem_ctrl1 (s : State) (r : Region) (m : Memory) : (s.setMem r m).ctrl1 = s.ctrl1 := by
  cases r <;> rfl

@[simp] theorem State.setMem_sprbuf (s : State) (r : Region) (m : Memory) : (s.setMem r m).sprbuf = s.sprbuf := by
  cases r <;> rfl

@[simp] theorem State.setMem_usage (s : State) (r : Region) (m : Memory) : (s.setMem r m).usage = s.usage := by
  cases r <;> rfl

@[simp] theorem State.setMem_shown (s : State) (r : Region) (m : Memory) : (s.setMem r m).shown = s.shown := by
  cases r <;> rfl

@[simp] theorem State.setMem_cache (s : State) (r : Region) (m : Memory) : (s.setMem r m).cache = s.cache := by
  cases r <;> rfl

@[simp] theorem State.setMem_mark (s : State) (r : Region) (m : Memory) : (s.setMem r m).mark = s.mark := by
  cases r <;> rfl

@[simp] theorem State.setMem_stream (s : State) (r : Region) (m : Memory) : (s.setMem r m).stream = s.stream := by
  cases r <;> rfl

@[simp] theorem State.setMem_out (s : State) (r : Region) (m : Memory) : (s.setMem r m).out = s.out := by
  cases r <;> rfl

@[simp] theorem State.mem_setMem_self (s : State) (r : Region) (m : Memory) : (s.setMem r m).mem r = m := by
  cases r <;> rfl

theorem State.mem_setMem_ne (s : State) {r r' : Region} (m : Memory) (h : r' ≠ r) :
    (s.setMem r m).mem r' = s.mem r' := by
  cases r <;> cases r' <;> first | rfl | exact absurd rfl h

theorem State.mem_setMem (s : State) (r r' : Region) (m : Memory) :
    (s.setMem r m).mem r' = if r' = r then m else s.mem r' := by
  split
  · rename_i h; subst h; simp
  · rename_i h; exact State.mem_setMem_ne s m h

@[simp] theorem State.setMem_mem (s : State) (r : Region) : s.setMem r (s.mem r) = s := by cases r <;> rfl

@[simp] theorem State.mem_spr (s : State) : s.mem .spr = s.spr := rfl

@[simp] theorem State.mem_pf (s : State) : s.mem .pf = s.pf := rfl

@[simp] theorem State.mem_txt (s : State) : s.mem .txt = s.txt := rfl

@[simp] theorem State.mem_chr (s : State) : s.mem .chr = s.chr := rfl

@[simp] theorem State.mem_lin (s : State) : s.mem .lin = s.lin := rfl

@[simp] theorem State.mem_piv (s : State) : s.mem .piv = s.piv := rfl

/-! ### The record updates the commands make: they leave every region -/

@[simp] theorem State.mem_with_cache (s : State) (v : Caches) (r : Region) :
    State.mem { s with cache := v } r = s.mem r := by cases r <;> rfl

@[simp] theorem State.mem_with_mark (s : State) (v : Option Reason) (r : Region) :
    State.mem { s with mark := v } r = s.mem r := by cases r <;> rfl

@[simp] theorem State.mem_with_out (s : State) (v : List Result) (r : Region) :
    State.mem { s with out := v } r = s.mem r := by cases r <;> rfl

@[simp] theorem State.mem_with_stream (s : State) (v : List Word) (r : Region) :
    State.mem { s with stream := v } r = s.mem r := by cases r <;> rfl

@[simp] theorem State.mem_with_ctrl0 (s : State) (v : Vector Half 8) (r : Region) :
    State.mem { s with ctrl0 := v } r = s.mem r := by cases r <;> rfl

@[simp] theorem State.mem_with_ctrl1 (s : State) (v : Vector Half 8) (r : Region) :
    State.mem { s with ctrl1 := v } r = s.mem r := by cases r <;> rfl

@[simp] theorem State.mem_with_buffers (s : State) (b : List (Nat × Half)) (u : List (Nat × Byte))
    (l : List Descriptor) (r : Region) :
    State.mem { s with sprbuf := b, usage := u, shown := l } r = s.mem r := by cases r <;> rfl

/-! ### `emit` -/

@[simp] theorem emit_par (v : Result) (s : State) : (emit v s).par = s.par := rfl

@[simp] theorem emit_spr (v : Result) (s : State) : (emit v s).spr = s.spr := rfl

@[simp] theorem emit_pf (v : Result) (s : State) : (emit v s).pf = s.pf := rfl

@[simp] theorem emit_txt (v : Result) (s : State) : (emit v s).txt = s.txt := rfl

@[simp] theorem emit_chr (v : Result) (s : State) : (emit v s).chr = s.chr := rfl

@[simp] theorem emit_lin (v : Result) (s : State) : (emit v s).lin = s.lin := rfl

@[simp] theorem emit_piv (v : Result) (s : State) : (emit v s).piv = s.piv := rfl

@[simp] theorem emit_ctrl0 (v : Result) (s : State) : (emit v s).ctrl0 = s.ctrl0 := rfl

@[simp] theorem emit_ctrl1 (v : Result) (s : State) : (emit v s).ctrl1 = s.ctrl1 := rfl

@[simp] theorem emit_sprbuf (v : Result) (s : State) : (emit v s).sprbuf = s.sprbuf := rfl

@[simp] theorem emit_usage (v : Result) (s : State) : (emit v s).usage = s.usage := rfl

@[simp] theorem emit_shown (v : Result) (s : State) : (emit v s).shown = s.shown := rfl

@[simp] theorem emit_cache (v : Result) (s : State) : (emit v s).cache = s.cache := rfl

@[simp] theorem emit_mark (v : Result) (s : State) : (emit v s).mark = s.mark := rfl

@[simp] theorem emit_stream (v : Result) (s : State) : (emit v s).stream = s.stream := rfl

@[simp] theorem emit_out (v : Result) (s : State) : (emit v s).out = s.out ++ [v] := rfl

@[simp] theorem emit_mem (v : Result) (s : State) (r : Region) : (emit v s).mem r = s.mem r := by
  cases r <;> rfl

/-! ### `memWrite` -/

@[simp] theorem memWrite_par (s : State) (r : Region) (a : Nat) (v : Half) (ln : BitVec 2) :
    (memWrite s r a v ln).par = s.par := by simp [memWrite]

@[simp] theorem memWrite_ctrl0 (s : State) (r : Region) (a : Nat) (v : Half) (ln : BitVec 2) :
    (memWrite s r a v ln).ctrl0 = s.ctrl0 := by simp [memWrite]

@[simp] theorem memWrite_ctrl1 (s : State) (r : Region) (a : Nat) (v : Half) (ln : BitVec 2) :
    (memWrite s r a v ln).ctrl1 = s.ctrl1 := by simp [memWrite]

@[simp] theorem memWrite_sprbuf (s : State) (r : Region) (a : Nat) (v : Half) (ln : BitVec 2) :
    (memWrite s r a v ln).sprbuf = s.sprbuf := by simp [memWrite]

@[simp] theorem memWrite_usage (s : State) (r : Region) (a : Nat) (v : Half) (ln : BitVec 2) :
    (memWrite s r a v ln).usage = s.usage := by simp [memWrite]

@[simp] theorem memWrite_shown (s : State) (r : Region) (a : Nat) (v : Half) (ln : BitVec 2) :
    (memWrite s r a v ln).shown = s.shown := by simp [memWrite]

@[simp] theorem memWrite_cache (s : State) (r : Region) (a : Nat) (v : Half) (ln : BitVec 2) :
    (memWrite s r a v ln).cache = s.cache := by simp [memWrite]

@[simp] theorem memWrite_mark (s : State) (r : Region) (a : Nat) (v : Half) (ln : BitVec 2) :
    (memWrite s r a v ln).mark = s.mark := by simp [memWrite]

@[simp] theorem memWrite_stream (s : State) (r : Region) (a : Nat) (v : Half) (ln : BitVec 2) :
    (memWrite s r a v ln).stream = s.stream := by simp [memWrite]

@[simp] theorem memWrite_out (s : State) (r : Region) (a : Nat) (v : Half) (ln : BitVec 2) :
    (memWrite s r a v ln).out = s.out := by simp [memWrite]

theorem memWrite_mem (s : State) (r r' : Region) (a : Nat) (v : Half) (ln : BitVec 2) :
    (memWrite s r a v ln).mem r' =
      if r' = r then writeHalf (s.mem r) a (laneMerge (memRead s r a) v ln) else s.mem r' := by
  simp [memWrite, State.mem_setMem]

/-- What a read gives after a write: the merged halfword at the written offset, everything else as before (R91). -/
theorem memRead_memWrite (s : State) (r r' : Region) (a b : Nat) (v : Half) (ln : BitVec 2) :
    memRead (memWrite s r a v ln) r' b =
      if r' = r ∧ b = a then laneMerge (memRead s r a) v ln else memRead s r' b := by
  unfold memRead
  rw [memWrite_mem]
  by_cases hr : r' = r
  · subst hr
    by_cases hb : b = a
    · subst hb; simp [memRead]
    · simp [hb, readHalf_writeHalf_ne _ _ hb]
  · simp [hr]

/-- Writing the same value twice is writing it once. -/
theorem memWrite_twice {s : State} {r : Region} {n a : Nat} (v : Half) (ln : BitVec 2)
    (h : Memory.wf (s.mem r) n = true) (ha : a < n) :
    memWrite (memWrite s r a v ln) r a v ln = memWrite s r a v ln := by
  have e : ∀ u : State, memWrite u r a v ln =
      u.setMem r (writeHalf (u.mem r) a (laneMerge (memRead u r a) v ln)) := fun _ => rfl
  rw [e (memWrite s r a v ln), memRead_memWrite, if_pos ⟨rfl, rfl⟩, laneMerge_idem, memWrite_mem, if_pos rfl]
  have h2 := writeHalf_readHalf (Memory.wf_writeHalf (laneMerge (memRead s r a) v ln) h ha) a
  rw [readHalf_writeHalf_self] at h2
  rw [h2, e s]
  cases r <;> rfl

/-- Marking the same elements dirty twice is marking them once. -/
theorem markDirty_idem (c : Caches) (r : Region) (a : Nat) :
    markDirty (markDirty c r a) r a = markDirty c r a := by
  cases r <;> simp [markDirty, Sparse.del, List.filter_filter]
  by_cases h : a < 0x4000 <;> simp [h]

/-! ### Banks -/

@[simp] theorem bankRead_bankWrite_self (b : Vector Half 8) (i : Fin 8) (v : Half) (ln : BitVec 2) :
    bankRead (bankWrite b i v ln) i = laneMerge (bankRead b i) v ln := by
  simp [bankRead, bankWrite]

theorem bankRead_bankWrite_ne (b : Vector Half 8) {i j : Fin 8} (v : Half) (ln : BitVec 2) (h : j ≠ i) :
    bankRead (bankWrite b i v ln) j = bankRead b j := by
  unfold bankRead bankWrite
  have : (i : Nat) ≠ j := fun e => h (Fin.ext e.symm)
  simp [this]

@[simp] theorem bankRead_replicate (v : Half) (i : Fin 8) : bankRead (Vector.replicate 8 v) i = v := by
  simp [bankRead]

/-! ### Taking a command -/

@[simp] theorem fetch_issueNext (w : Word) (s : State) : fetch (issueNext w s) = some (w, s) := rfl

theorem fetch_cons {s : State} {w : Word} {rest : List Word} (h : s.stream = w :: rest) :
    fetch s = some (w, { s with stream := rest }) := by
  unfold fetch; rw [h]

theorem fetch_nil {s : State} (h : s.stream = []) : fetch s = none := by
  unfold fetch; rw [h]

end Sys2Proof.Machine
end

