-- ==== Sys2Proof/Laws/Bus.lean ====
section
/-! SUPPORT. What one command can do, said once: `Effect` lists every outcome of `exec`, and `step_cases` those of a
step. Later proofs cite these and unfold no meaning. -/

namespace Sys2Proof.Machine

/-! ### The shared operations -/

theorem refuse_eq (m : Reason) (s : State) : refuse m s = .next { s with mark := s.mark.or (some m) } := rfl

theorem writeRegion_of_lt {r : Region} {a : Nat} (v : Half) (ln : BitVec 2) (s : State) (h : a < r.size) :
    writeRegion r a v ln s = .next { memWrite s r a v ln with cache := markDirty s.cache r a } := by
  rw [writeRegion, if_neg (by omega)]

theorem writeRegion_of_le {r : Region} {a : Nat} (v : Half) (ln : BitVec 2) (s : State) (h : r.size ≤ a) :
    writeRegion r a v ln s = refuse .offsetOutOfRange s := by
  rw [writeRegion, if_pos h]

theorem readRegion_of_lt {r : Region} {a : Nat} (s : State) (h : a < r.size) :
    readRegion r a s = .next (emit (.half (memRead s r a)) s) := by
  rw [readRegion, if_neg (by omega)]

theorem readRegion_of_le {r : Region} {a : Nat} (s : State) (h : r.size ≤ a) :
    readRegion r a s = refuse .offsetOutOfRange s := by
  rw [readRegion, if_pos h]

theorem readBank_of_lt (b : Vector Half 8) {i : Nat} (s : State) (h : i < 8) :
    readBank b i s = .next (emit (.half (bankRead b ⟨i, h⟩)) s) := by
  rw [readBank, dif_pos h]

theorem readBank_of_le (b : Vector Half 8) {i : Nat} (s : State) (h : 8 ≤ i) :
    readBank b i s = refuse .indexOutOfRange s := by
  rw [readBank, dif_neg (by omega)]

theorem exec_writeInstr (r : Region) (a : Nat) (v : Half) (ln : BitVec 2) (s : State) :
    exec (writeInstr r a v ln) s = writeRegion r a v ln s := by
  cases r <;> rfl

theorem exec_readInstr (r : Region) (a : Nat) (s : State) : exec (readInstr r a) s = readRegion r a s := by
  cases r <;> rfl

theorem exec_line_of_lt {y : Nat} (s : State) (h : y < s.par.visH) :
    exec (.line y) s = .next { emit (lineResult s y) s with cache := lineCaches s y } := by
  rw [exec, execLine, if_neg (by omega)]

theorem exec_line_of_le {y : Nat} (s : State) (h : s.par.visH ≤ y) :
    exec (.line y) s = refuse .lineOutOfRange s := by
  rw [exec, execLine, if_pos h]

theorem exec_frame (s : State) :
    exec .frame s = .next { s with
      sprbuf := (drawList s.par (buildList s.spr)).buf
      usage := (drawList s.par (buildList s.spr)).use
      shown := buildList s.spr } := rfl

/-! ### Every outcome of a command -/

/-- The outcomes of a command on a state: it is outside the interface and refused, or it has the effect of its own. -/
inductive Effect (s : State) : Instr → State → Prop where
  | refused (i : Instr) (h : i.inRange s.par.visH = false) :
      Effect s i { s with mark := s.mark.or (some i.refusalReason) }
  | nop : Effect s .nop s
  | write (r : Region) (a : Nat) (v : Half) (ln : BitVec 2) (h : a < r.size) :
      Effect s (writeInstr r a v ln) { memWrite s r a v ln with cache := markDirty s.cache r a }
  | read (r : Region) (a : Nat) (h : a < r.size) :
      Effect s (readInstr r a) (emit (.half (memRead s r a)) s)
  | cwr0 (i : Fin 8) (v : Half) (ln : BitVec 2) :
      Effect s (.cwr0 i.val v ln) { s with ctrl0 := bankWrite s.ctrl0 i v ln }
  | cwr1 (i : Fin 8) (v : Half) (ln : BitVec 2) :
      Effect s (.cwr1 i.val v ln) { s with ctrl1 := bankWrite s.ctrl1 i v ln }
  | crd0 (i : Fin 8) : Effect s (.crd0 i.val) (emit (.half (bankRead s.ctrl0 i)) s)
  | crd1 (i : Fin 8) : Effect s (.crd1 i.val) (emit (.half (bankRead s.ctrl1 i)) s)
  | frame : Effect s .frame { s with
      sprbuf := (drawList s.par (buildList s.spr)).buf
      usage := (drawList s.par (buildList s.spr)).use
      shown := buildList s.spr }
  | line (y : Nat) (h : y < s.par.visH) :
      Effect s (.line y) { emit (lineResult s y) s with cache := lineCaches s y }
  | reset : Effect s .reset { s with
      ctrl0 := Vector.replicate 8 0#16
      ctrl1 := Vector.replicate 8 0#16
      cache := Caches.allDirty }

theorem writeRegion_effect (r : Region) (a : Nat) (v : Half) (ln : BitVec 2) (s : State) :
    ∃ t, writeRegion r a v ln s = .next t ∧ Effect s (writeInstr r a v ln) t := by
  by_cases h : a < r.size
  · exact ⟨_, writeRegion_of_lt v ln s h, .write r a v ln h⟩
  · refine ⟨_, writeRegion_of_le v ln s (by omega), ?_⟩
    cases r <;> exact .refused _ (decide_eq_false h)

theorem readRegion_effect (r : Region) (a : Nat) (s : State) :
    ∃ t, readRegion r a s = .next t ∧ Effect s (readInstr r a) t := by
  by_cases h : a < r.size
  · exact ⟨_, readRegion_of_lt s h, .read r a h⟩
  · refine ⟨_, readRegion_of_le s (by omega), ?_⟩
    cases r <;> exact .refused _ (decide_eq_false h)

/-- Every command gives a next state, and it is one of the outcomes of `Effect`. -/
theorem exec_effect (i : Instr) (s : State) : ∃ t, exec i s = .next t ∧ Effect s i t := by
  cases i with
  | nop => exact ⟨_, rfl, .nop⟩
  | wrspr a v ln => exact writeRegion_effect .spr a v ln s
  | wrpf a v ln => exact writeRegion_effect .pf a v ln s
  | wrtxt a v ln => exact writeRegion_effect .txt a v ln s
  | wrchr a v ln => exact writeRegion_effect .chr a v ln s
  | wrlin a v ln => exact writeRegion_effect .lin a v ln s
  | wrpiv a v ln => exact writeRegion_effect .piv a v ln s
  | rdspr a => exact readRegion_effect .spr a s
  | rdpf a => exact readRegion_effect .pf a s
  | rdtxt a => exact readRegion_effect .txt a s
  | rdchr a => exact readRegion_effect .chr a s
  | rdlin a => exact readRegion_effect .lin a s
  | rdpiv a => exact readRegion_effect .piv a s
  | cwr0 k v ln =>
    by_cases h : k < 8
    · exact ⟨_, dif_pos h, .cwr0 ⟨k, h⟩ v ln⟩
    · exact ⟨_, dif_neg h, .refused _ (decide_eq_false h)⟩
  | cwr1 k v ln =>
    by_cases h : k < 8
    · exact ⟨_, dif_pos h, .cwr1 ⟨k, h⟩ v ln⟩
    · exact ⟨_, dif_neg h, .refused _ (decide_eq_false h)⟩
  | crd0 k =>
    by_cases h : k < 8
    · exact ⟨_, readBank_of_lt _ s h, .crd0 ⟨k, h⟩⟩
    · exact ⟨_, readBank_of_le _ s (by omega), .refused _ (decide_eq_false h)⟩
  | crd1 k =>
    by_cases h : k < 8
    · exact ⟨_, readBank_of_lt _ s h, .crd1 ⟨k, h⟩⟩
    · exact ⟨_, readBank_of_le _ s (by omega), .refused _ (decide_eq_false h)⟩
  | frame => exact ⟨_, rfl, .frame⟩
  | line y =>
    by_cases h : y < s.par.visH
    · exact ⟨_, if_neg (by omega), .line y h⟩
    · exact ⟨_, if_pos (by omega), .refused _ (decide_eq_false h)⟩
  | reset => exact ⟨_, rfl, .reset⟩

/-- What a command does when it gives a next state. -/
theorem effect_of_exec {i : Instr} {s t : State} (h : exec i s = .next t) : Effect s i t := by
  obtain ⟨u, hu, he⟩ := exec_effect i s
  rw [hu] at h
  cases h
  exact he

/-- A command outside the interface is refused with its reason, and nothing else (R301). -/
theorem exec_of_not_inRange {i : Instr} {s : State} (h : i.inRange s.par.visH = false) :
    exec i s = .next { s with mark := s.mark.or (some i.refusalReason) } := by
  cases i with
  | nop | frame | reset => cases h
  | wrspr a v ln | wrpf a v ln | wrtxt a v ln | wrchr a v ln | wrlin a v ln | wrpiv a v ln =>
    exact writeRegion_of_le v ln s (Nat.le_of_not_lt (of_decide_eq_false h))
  | rdspr a | rdpf a | rdtxt a | rdchr a | rdlin a | rdpiv a =>
    exact readRegion_of_le s (Nat.le_of_not_lt (of_decide_eq_false h))
  | cwr0 k v ln | cwr1 k v ln => exact dif_neg (of_decide_eq_false h)
  | crd0 k | crd1 k => exact readBank_of_le _ s (Nat.le_of_not_lt (of_decide_eq_false h))
  | line y => exact if_pos (Nat.le_of_not_lt (of_decide_eq_false h))

theorem some_of_or (m : Option Reason) (r : Reason) : ∃ m', m.or (some r) = some m' := by
  cases m <;> exact ⟨_, rfl⟩

/-- A command outside the interface changes no state but the mark, which is then set. -/
theorem refusedCommand_of_not_inRange {i : Instr} {s : State} (h : i.inRange s.par.visH = false) :
    RefusedCommand i s := by
  obtain ⟨m, hm⟩ := some_of_or s.mark i.refusalReason
  exact ⟨m, by rw [exec_of_not_inRange h, hm]⟩

/-- A command inside the interface is not refused: it leaves the mark. -/
theorem exec_mark_of_inRange {i : Instr} {s t : State} (hr : i.inRange s.par.visH = true)
    (h : exec i s = .next t) : t.mark = s.mark := by
  cases effect_of_exec h with
  | refused _ hf => rw [hf] at hr; cases hr
  | write r a v ln _ => exact memWrite_mark s r a v ln
  | _ => rfl

/-- No command takes from or adds to the stream, and none changes a parameter (R46). -/
theorem exec_par_stream {i : Instr} {s t : State} (h : exec i s = .next t) :
    t.par = s.par ∧ t.stream = s.stream := by
  cases effect_of_exec h with
  | write r a v ln _ => exact ⟨memWrite_par s r a v ln, memWrite_stream s r a v ln⟩
  | _ => exact ⟨rfl, rfl⟩

/-- A set mark is kept. -/
theorem exec_mark {i : Instr} {s t : State} {m : Reason} (h : exec i s = .next t) (hm : s.mark = some m) :
    t.mark = some m := by
  cases hr : i.inRange s.par.visH with
  | true => rw [exec_mark_of_inRange hr h, hm]
  | false => rw [exec_of_not_inRange hr] at h; cases h; simp [hm]

/-! ### Every outcome of a step -/

theorem step_of_decode {s : State} {w : Word} {rest : List Word} {i : Instr} (hs : s.stream = w :: rest)
    (hd : decode w = .ok i) : step s = exec i { s with stream := rest } := by
  unfold step
  rw [fetch_cons hs]
  simp [hd]

theorem step_of_illegal {s : State} {w : Word} {rest : List Word} {e : DecodeReject} (hs : s.stream = w :: rest)
    (hd : decode w = .error e) :
    step s = .next { s with stream := rest, mark := s.mark.or (some .illegalEncoding) } := by
  unfold step
  rw [fetch_cons hs]
  cases e
  simp [hd, refuseWord, refuse_eq]

theorem step_of_idle {s : State} (hs : s.stream = []) : step s = .next s := by
  unfold step
  rw [fetch_nil hs]
  rfl

/-- The three cases of a step: nothing waits, an illegal word is refused, or a command is executed. -/
theorem step_cases {s t : State} (h : step s = .next t) :
    (s.stream = [] ∧ t = s) ∨
    (∃ w rest, s.stream = w :: rest ∧ decode w = .error .illegalEncoding ∧
      t = { s with stream := rest, mark := s.mark.or (some .illegalEncoding) }) ∨
    (∃ w rest i, s.stream = w :: rest ∧ decode w = .ok i ∧ exec i { s with stream := rest } = .next t) := by
  cases hs : s.stream with
  | nil => rw [step_of_idle hs] at h; cases h; exact .inl ⟨rfl, rfl⟩
  | cons w rest =>
    cases hd : decode w with
    | error e =>
      rw [step_of_illegal hs hd] at h
      cases h; cases e
      exact .inr (.inl ⟨w, rest, rfl, hd, rfl⟩)
    | ok i => rw [step_of_decode hs hd] at h; exact .inr (.inr ⟨w, rest, i, rfl, hd, h⟩)

/-- A step of a waiting word takes it and leaves the rest of the stream. -/
theorem step_total {s : State} {w : Word} {rest : List Word} (hs : s.stream = w :: rest) :
    ∃ t, step s = .next t ∧ t.stream = rest ∧ t.par = s.par := by
  cases hd : decode w with
  | error e => exact ⟨_, step_of_illegal hs hd, rfl, rfl⟩
  | ok i =>
    obtain ⟨t, ht, -⟩ := exec_effect i { s with stream := rest }
    have := exec_par_stream ht
    exact ⟨t, by rw [step_of_decode hs hd, ht], this.2, this.1⟩

/-! ### A run -/

theorem run_succ {s u : State} (n : Nat) (h : step s = .next u) :
    Host.Core.run Sys2Proof.core (n + 1) s = Host.Core.run Sys2Proof.core n u := by
  have hc : Sys2Proof.core.step s = .next u := h
  simp only [Host.Core.run]
  split <;> rename_i he <;> rw [hc] at he <;> cases he
  rfl

theorem run_nil {s : State} (h : s.stream = []) : s.run = .next s := by
  unfold State.run; rw [h]; rfl

theorem run_cons {s u : State} {w : Word} {rest : List Word} (hs : s.stream = w :: rest)
    (h : step s = .next u) : s.run = u.run := by
  obtain ⟨u', hu, hst, -⟩ := step_total hs
  rw [h] at hu; cases hu
  unfold State.run
  rw [hs, hst]
  exact run_succ rest.length h

/-- A run by induction on the stream: a property of the start and end of a run holds when it holds of the run of no
word and is carried back over one step. -/
theorem run_induction {P : State → State → Prop} (h0 : ∀ s, s.stream = [] → P s s)
    (h1 : ∀ s u t w rest, s.stream = w :: rest → step s = .next u → u.stream = rest → P u t → P s t) :
    ∀ s t, s.run = .next t → P s t := by
  have key : ∀ (ws : List Word) (s t : State), s.stream = ws → s.run = .next t → P s t := by
    intro ws
    induction ws with
    | nil => intro s t hs h; rw [run_nil hs] at h; cases h; exact h0 s hs
    | cons w rest ih =>
      intro s t hs h
      obtain ⟨u, hu, hst, -⟩ := step_total hs
      rw [run_cons hs hu] at h
      exact h1 s u t w rest hs hu hst (ih u t hst h)
  exact fun s t h => key _ s t rfl h

/-- A relation between two runs of the same words that every pair of steps carries on holds at their ends. The relation
may speak of the words still to come. -/
theorem run_relation {R : List Word → State → State → Prop}
    (h : ∀ w rest s t u v, s.stream = w :: rest → t.stream = w :: rest → R (w :: rest) s t →
      step s = .next u → step t = .next v → R rest u v) :
    ∀ ws s t u v, s.stream = ws → t.stream = ws → R ws s t → s.run = .next u → t.run = .next v → R [] u v := by
  intro ws
  induction ws with
  | nil =>
    intro s t u v hs ht hr h1 h2
    rw [run_nil hs] at h1
    rw [run_nil ht] at h2
    cases h1
    cases h2
    exact hr
  | cons w rest ih =>
    intro s t u v hs ht hr h1 h2
    obtain ⟨u', hu, hus, -⟩ := step_total hs
    obtain ⟨v', hv, hvs, -⟩ := step_total ht
    rw [run_cons hs hu] at h1
    rw [run_cons ht hv] at h2
    exact ih u' v' u v hus hvs (h w rest s t u' v' hs ht hr hu hv) h1 h2

end Sys2Proof.Machine
end

