-- ==== Sys2Proof/Laws/Sprites.lean ====
section
/-! SUPPORT. The laws of FRAME: what drawing one descriptor does to a pixel and to a usage mask, and that it keeps the
canonical form (R211, R217, R218, R220). -/

namespace Sys2Proof.Machine

/-! ### The list -/

theorem scanned_length (spr : Memory) : (scanned spr).length ≤ entryCount := by
  refine le_trans (List.takeWhile_sublist _).length_le ?_
  simp

/-- The list holds at most one descriptor an entry. -/
theorem buildList_length (spr : Memory) : (buildList spr).length ≤ entryCount := by
  rw [buildList, List.length_map]
  exact le_trans List.filter_sublist.length_le (scanned_length spr)

/-- A listed descriptor has no scale of 0 (R211). -/
theorem buildList_scales {spr : Memory} {d : Descriptor} (h : d ∈ buildList spr) : d.sx ≠ 0 ∧ d.sy ≠ 0 := by
  obtain ⟨e, he, rfl⟩ := List.mem_map.1 h
  have hk := (List.mem_filter.1 he).2
  simp only [entryKept, Bool.and_eq_true, bne_iff_ne] at hk
  have nz : ∀ b : Byte, b ≠ 0#8 → b.toNat ≠ 0 := fun b hb h0 => hb (BitVec.eq_of_toNat_eq h0)
  exact ⟨nz _ hk.1.2, nz _ hk.2⟩

/-! ### Keys -/

theorem sprKey_inj {g y x g' y' x' : Nat} (hy : y < 256) (hx : x < 512) (hy' : y' < 256) (hx' : x' < 512) :
    sprKey g y x = sprKey g' y' x' ↔ g = g' ∧ y = y' ∧ x = x' := by
  unfold sprKey; omega

theorem useKey_inj {g y g' y' : Nat} (hy : y < 256) (hy' : y' < 256) :
    useKey g y = useKey g' y' ↔ g = g' ∧ y = y' := by
  unfold useKey; omega

theorem Descriptor.group_lt (d : Descriptor) : d.group < 4 := (d.color.extractLsb' 6 2).isLt

theorem Descriptor.mem_rows {d : Descriptor} {r : Nat} :
    r ∈ d.rows ↔ r < 256 ∧ Machine.covers d.y d.sy r = true := by
  simp [Descriptor.rows]

theorem Descriptor.mem_cols {d : Descriptor} {p : Params} {c : Nat} :
    c ∈ d.cols p ↔ c < p.screenW ∧ Machine.covers d.x d.sx c = true := by
  simp [Descriptor.cols]

/-! ### Folding updates of one value -/

/-- A fold whose steps either leave a value or update it by one idempotent update, where a step does not change which
other steps update. -/
theorem foldl_update {σ α β : Type} {f : σ → α → σ} {get : σ → β} {upd : β → β} {hit : σ → α → Prop}
    [∀ s, DecidablePred (hit s)] (l : List α) (hl : l.Nodup) (idem : ∀ v, upd (upd v) = upd v)
    (h : ∀ s, ∀ a ∈ l, get (f s a) = if hit s a then upd (get s) else get s)
    (keep : ∀ s, ∀ a ∈ l, ∀ b ∈ l, a ≠ b → (hit (f s a) b ↔ hit s b)) (s : σ) :
    ((∃ a ∈ l, hit s a) → get (l.foldl f s) = upd (get s)) ∧
      ((¬ ∃ a ∈ l, hit s a) → get (l.foldl f s) = get s) := by
  induction l generalizing s with
  | nil => simp
  | cons a l ih =>
    have ih' := ih hl.of_cons (fun s b hb => h s b (List.mem_cons_of_mem _ hb))
      (fun s b hb c hc => keep s b (List.mem_cons_of_mem _ hb) c (List.mem_cons_of_mem _ hc)) (f s a)
    have later : ∀ b ∈ l, (hit (f s a) b ↔ hit s b) := fun b hb =>
      keep s a List.mem_cons_self b (List.mem_cons_of_mem _ hb) fun e => (List.nodup_cons.1 hl).1 (e ▸ hb)
    have ha := h s a List.mem_cons_self
    rw [List.foldl_cons]
    constructor
    · rintro ⟨b, hb, hit_b⟩
      by_cases hl : ∃ b ∈ l, hit s b
      · obtain ⟨c, hc, hit_c⟩ := hl
        rw [ih'.1 ⟨c, hc, (later c hc).2 hit_c⟩, ha]
        split
        · rw [idem]
        · rfl
      · rw [ih'.2 (fun ⟨c, hc, h⟩ => hl ⟨c, hc, (later c hc).1 h⟩), ha]
        rcases List.mem_cons.1 hb with rfl | hb
        · rw [if_pos hit_b]
        · exact absurd ⟨b, hb, hit_b⟩ hl
    · intro hn
      rw [ih'.2 (fun ⟨b, hb, h⟩ => hn ⟨b, List.mem_cons_of_mem _ hb, (later b hb).1 h⟩), ha,
        if_neg (fun h => hn ⟨a, List.mem_cons_self, h⟩)]

/-- A fold keeps what each of its steps keeps. -/
theorem foldl_keeps {σ α : Type} {P : σ → Prop} {f : σ → α → σ} {l : List α}
    (h : ∀ s, ∀ a ∈ l, P s → P (f s a)) {s : σ} (hs : P s) : P (l.foldl f s) := by
  induction l generalizing s with
  | nil => exact hs
  | cons a l ih =>
    exact ih (fun s b hb => h s b (List.mem_cons_of_mem _ hb)) (h s a List.mem_cons_self hs)

/-! ### One pixel -/

@[simp] theorem overwrites_iff {p : Params} {v : Half} :
    overwrites p v = true ↔ p.sprOverdraw = .laterWins ∨ v = 0#16 := by
  simp [overwrites]

@[simp] theorem countsUse_iff {p : Params} {v : Half} :
    countsUse p v = true ↔ p.usageRule = .covered ∨ p.sprOverdraw = .laterWins ∨ v = 0#16 := by
  simp [countsUse]

/-- The value of a pixel that a descriptor paints: the later or the earlier of two stays (R217). -/
def paintOver (p : Params) (d : Descriptor) (r c : Nat) (v : Half) : Half :=
  if overwrites p v = true then sprIndex d.color (sprPen p d r c) else v

theorem paintOver_idem (p : Params) (d : Descriptor) (r c : Nat) (v : Half) :
    paintOver p d r c (paintOver p d r c v) = paintOver p d r c v := by
  unfold paintOver
  by_cases h : overwrites p v = true
  · rw [if_pos h, ite_self]
  · rw [if_neg h, if_neg h]

theorem plot_sprAt {p : Params} {d : Descriptor} {r c g y x : Nat} (cv : Canvas) (hr : r < 256) (hc : c < 512)
    (hy : y < 256) (hx : x < 512) :
    sprAt (plot p d cv r c).buf g y x =
      if (d.group = g ∧ sprPen p d r c ≠ 0#6) ∧ r = y ∧ c = x then paintOver p d y x (sprAt cv.buf g y x)
      else sprAt cv.buf g y x := by
  unfold plot
  by_cases hp : sprPen p d r c = 0#6
  · simp [hp]
  · simp only [hp, if_false, ne_eq, not_false_eq_true, and_true]
    by_cases hk : d.group = g ∧ r = y ∧ c = x
    · obtain ⟨rfl, rfl, rfl⟩ := hk
      rw [if_pos (c := d.group = d.group ∧ r = r ∧ c = c) ⟨rfl, rfl, rfl⟩, paintOver]
      by_cases ho : overwrites p (sprAt cv.buf d.group r c) = true
      · rw [if_pos ho, if_pos ho]
        exact Sparse.get_set_self _ _ _ _
      · rw [if_neg ho, if_neg ho]
    · rw [if_neg hk]
      split
      · refine Sparse.get_set_ne _ _ _ fun he => hk ?_
        have := (sprKey_inj hy hx hr hc).1 he
        exact ⟨this.1.symm, this.2.1.symm, this.2.2.symm⟩
      · rfl

theorem plot_usageAt {p : Params} {d : Descriptor} {r g y : Nat} (cv : Canvas) (c : Nat) (hr : r < 256)
    (hy : y < 256) :
    usageAt (plot p d cv r c).use g y =
      if (d.group = g ∧ sprPen p d r c ≠ 0#6) ∧ r = y ∧ countsUse p (sprAt cv.buf g y c) = true then
        usageAt cv.use g y ||| d.useBit
      else usageAt cv.use g y := by
  unfold plot
  by_cases hp : sprPen p d r c = 0#6
  · simp [hp]
  · simp only [hp, if_false, ne_eq, not_false_eq_true, and_true]
    by_cases hk : d.group = g ∧ r = y
    · obtain ⟨rfl, rfl⟩ := hk
      simp only [true_and]
      split
      · exact Sparse.get_set_self 0#8 cv.use (useKey d.group r) _
      · rfl
    · rw [if_neg (c := d.group = g ∧ r = y ∧ _) (fun h => hk ⟨h.1, h.2.1⟩)]
      split
      · refine Sparse.get_set_ne 0#8 cv.use _ fun he => hk ?_
        have := (useKey_inj hy hr).1 he
        exact ⟨this.1.symm, this.2.symm⟩
      · rfl

/-! ### One descriptor -/

theorem paints_iff {p : Params} {d : Descriptor} {g y x : Nat} (hy : y < 256) (hx : x < p.screenW) :
    d.paints p g y x = true ↔ d.group = g ∧ y ∈ d.rows ∧ x ∈ d.cols p ∧ sprPen p d y x ≠ 0#6 := by
  rw [Descriptor.mem_rows, Descriptor.mem_cols]
  simp only [Descriptor.paints, Descriptor.covers, Bool.and_eq_true, beq_iff_eq, bne_iff_ne]
  exact ⟨fun ⟨⟨h1, h2, h3⟩, h4⟩ => ⟨h1, ⟨hy, h3⟩, ⟨hx, h2⟩, h4⟩,
    fun ⟨h1, ⟨_, h3⟩, ⟨_, h2⟩, h4⟩ => ⟨⟨h1, h2, h3⟩, h4⟩⟩

theorem Descriptor.rows_nodup (d : Descriptor) : d.rows.Nodup := List.nodup_range.filter _

theorem Descriptor.cols_nodup (d : Descriptor) (p : Params) : (d.cols p).Nodup := List.nodup_range.filter _

/-- One row of a descriptor: what its pixels do to a pixel of the buffer. -/
theorem row_sprAt {p : Params} {d : Descriptor} {g y x r : Nat} (cv : Canvas) (hw : p.screenW ≤ 512) (hr : r ∈ d.rows)
    (hy : y < 256) (hx : x < p.screenW) :
    sprAt ((d.cols p).foldl (fun cv c => plot p d cv r c) cv).buf g y x =
      if ((d.group = g ∧ sprPen p d r x ≠ 0#6) ∧ r = y) ∧ x ∈ d.cols p then paintOver p d y x (sprAt cv.buf g y x)
      else sprAt cv.buf g y x := by
  have hf := foldl_update (f := fun cv c => plot p d cv r c) (get := fun cv => sprAt cv.buf g y x)
    (upd := paintOver p d y x) (hit := fun _ c => (d.group = g ∧ sprPen p d r c ≠ 0#6) ∧ r = y ∧ c = x) (d.cols p)
    (d.cols_nodup p) (paintOver_idem p d y x)
    (fun cv c hc => plot_sprAt cv (Descriptor.mem_rows.1 hr).1
      (lt_of_lt_of_le (Descriptor.mem_cols.1 hc).1 hw) hy (lt_of_lt_of_le hx hw)) (fun _ _ _ _ _ _ => Iff.rfl) cv
  split
  · rename_i h
    exact hf.1 ⟨x, h.2, h.1.1, h.1.2, rfl⟩
  · rename_i h
    refine hf.2 ?_
    rintro ⟨c, hc, h1, h2, rfl⟩
    exact h ⟨⟨h1, h2⟩, hc⟩

/-- What drawing a descriptor does to a pixel of the buffer (R217). -/
theorem raster_sprAt {p : Params} {d : Descriptor} {g y x : Nat} (cv : Canvas) (hw : p.screenW ≤ 512) (hy : y < 256)
    (hx : x < p.screenW) :
    sprAt (raster p cv d).buf g y x =
      if d.paints p g y x = true then paintOver p d y x (sprAt cv.buf g y x) else sprAt cv.buf g y x := by
  have hf := foldl_update (f := fun cv r => (d.cols p).foldl (fun cv c => plot p d cv r c) cv)
    (get := fun cv => sprAt cv.buf g y x) (upd := paintOver p d y x)
    (hit := fun _ r => ((d.group = g ∧ sprPen p d r x ≠ 0#6) ∧ r = y) ∧ x ∈ d.cols p) d.rows d.rows_nodup
    (paintOver_idem p d y x) (fun cv r hr => row_sprAt cv hw hr hy hx) (fun _ _ _ _ _ _ => Iff.rfl) cv
  split
  · rename_i h
    obtain ⟨h1, h2, h3, h4⟩ := (paints_iff hy hx).1 h
    exact hf.1 ⟨y, h2, ⟨⟨h1, h4⟩, rfl⟩, h3⟩
  · rename_i h
    refine hf.2 ?_
    rintro ⟨r, hr, ⟨⟨h1, h4⟩, rfl⟩, h3⟩
    exact h ((paints_iff hy hx).2 ⟨h1, hr, h3, h4⟩)

/-- One row of a descriptor: what its pixels do to a usage mask. -/
theorem row_usageAt {p : Params} {d : Descriptor} {g y r : Nat} (cv : Canvas) (hw : p.screenW ≤ 512) (hr : r ∈ d.rows)
    (hy : y < 256) :
    usageAt ((d.cols p).foldl (fun cv c => plot p d cv r c) cv).use g y =
      if ∃ c ∈ d.cols p, (d.group = g ∧ sprPen p d r c ≠ 0#6) ∧ r = y ∧ countsUse p (sprAt cv.buf g y c) = true then
        usageAt cv.use g y ||| d.useBit
      else usageAt cv.use g y := by
  have hr' := (Descriptor.mem_rows.1 hr).1
  have col : ∀ c ∈ d.cols p, c < 512 := fun c hc => lt_of_lt_of_le (Descriptor.mem_cols.1 hc).1 hw
  have hf := foldl_update (f := fun cv c => plot p d cv r c) (get := fun cv => usageAt cv.use g y)
    (upd := (· ||| d.useBit))
    (hit := fun cv c => (d.group = g ∧ sprPen p d r c ≠ 0#6) ∧ r = y ∧ countsUse p (sprAt cv.buf g y c) = true)
    (d.cols p) (d.cols_nodup p) (fun v => by rw [BitVec.or_assoc, BitVec.or_self])
    (fun cv c _ => plot_usageAt cv c hr' hy)
    (fun cv a ha b hb hab => by rw [plot_sprAt cv hr' (col a ha) hy (col b hb), if_neg (fun h => hab h.2.2)]) cv
  split
  · rename_i h; exact hf.1 h
  · rename_i h; exact hf.2 h

/-- What drawing a descriptor does to a usage mask (R41, R217, R220). -/
theorem raster_usageAt {p : Params} {d : Descriptor} {g y : Nat} (cv : Canvas) (hw : p.screenW ≤ 512) (hy : y < 256) :
    ((∃ x < p.screenW, d.paints p g y x = true ∧ countsUse p (sprAt cv.buf g y x) = true) →
      usageAt (raster p cv d).use g y = usageAt cv.use g y ||| d.useBit) ∧
    ((¬ ∃ x < p.screenW, d.paints p g y x = true ∧ countsUse p (sprAt cv.buf g y x) = true) →
      usageAt (raster p cv d).use g y = usageAt cv.use g y) := by
  have hf := foldl_update (f := fun cv r => (d.cols p).foldl (fun cv c => plot p d cv r c) cv)
    (get := fun cv => usageAt cv.use g y) (upd := (· ||| d.useBit))
    (hit := fun cv r => ∃ c ∈ d.cols p,
      (d.group = g ∧ sprPen p d r c ≠ 0#6) ∧ r = y ∧ countsUse p (sprAt cv.buf g y c) = true) d.rows d.rows_nodup
    (fun v => by rw [BitVec.or_assoc, BitVec.or_self]) (fun cv r hr => row_usageAt cv hw hr hy)
    (fun cv a ha b _ hab => exists_congr fun c => and_congr_right fun hc => and_congr_right fun _ =>
      and_congr_right fun hb => by
        rw [row_sprAt cv hw ha hy (Descriptor.mem_cols.1 hc).1, if_neg (fun h => hab (h.1.2.trans hb.symm))]) cv
  constructor
  · rintro ⟨x, hx, h, hu⟩
    obtain ⟨h1, h2, h3, h4⟩ := (paints_iff hy hx).1 h
    exact hf.1 ⟨y, h2, x, h3, ⟨h1, h4⟩, rfl, hu⟩
  · intro h
    refine hf.2 ?_
    rintro ⟨r, hr, c, hc, ⟨h1, h4⟩, rfl, hu⟩
    exact h ⟨c, (Descriptor.mem_cols.1 hc).1, (paints_iff hy (Descriptor.mem_cols.1 hc).1).2 ⟨h1, hr, hc, h4⟩, hu⟩

/-! ### The canonical form -/

/-- The buffers and masks are in canonical form and hold nothing outside the screen width (R218). -/
structure Canvas.Ok (p : Params) (cv : Canvas) : Prop where
  buf : Sparse.canonical 0#16 (4 * 256 * 512) cv.buf = true
  columns : ∀ e ∈ cv.buf, sprKeyColumn e.1 < p.screenW
  use : Sparse.canonical 0#8 (4 * 256) cv.use = true

theorem plot_ok {p : Params} {d : Descriptor} {cv : Canvas} {r c : Nat} (hw : p.screenW ≤ 512) (hr : r < 256)
    (hc : c < p.screenW) (h : cv.Ok p) : (plot p d cv r c).Ok p := by
  have hg := d.group_lt
  unfold plot
  by_cases hp : sprPen p d r c = 0#6
  · simpa [hp] using h
  · simp only [hp, if_false]
    refine ⟨?_, ?_, ?_⟩
    · split
      · exact Sparse.canonical_set h.buf (by unfold sprKey; omega)
      · exact h.buf
    · intro e he
      split at he
      · rcases Sparse.mem_set he with ⟨rfl, -⟩ | he
        · show sprKey d.group r c % 512 < p.screenW
          unfold sprKey; omega
        · exact h.columns e he
      · exact h.columns e he
    · dsimp only
      split
      · exact Sparse.canonical_set h.use (by unfold useKey; omega)
      · exact h.use

theorem raster_ok {p : Params} (d : Descriptor) {cv : Canvas} (hw : p.screenW ≤ 512) (h : cv.Ok p) :
    (raster p cv d).Ok p :=
  foldl_keeps (fun _ _ hr hcv => foldl_keeps (fun _ _ hc hcv =>
    plot_ok hw (Descriptor.mem_rows.1 hr).1 (Descriptor.mem_cols.1 hc).1 hcv) hcv) h

/-- FRAME leaves canonical buffers and masks. -/
theorem drawList_ok {p : Params} (l : List Descriptor) (hw : p.screenW ≤ 512) : (drawList p l).Ok p :=
  foldl_keeps (fun _ d _ hcv => raster_ok d hw hcv) ⟨rfl, by simp, rfl⟩

end Sys2Proof.Machine
end

