-- ==== Sys2Proof/Laws/Compositor.lean ====
section
/-! SUPPORT. The laws of a LINE: where it samples, what its outputs depend on, and that the caches stay sorted and free
of stale entries (R43, R173, R326). -/

namespace Sys2Proof.Machine

/-! ### Where a LINE samples -/

theorem mapX_lt (s : State) (n : LineSnap) (p : Fin 4) (x : Nat) : mapX s n p x < mapW s.par := by
  have hpos : (0 : Int) < (mapW s.par : Int) := by
    unfold mapW mapCols; cases s.par.extended <;> decide
  unfold mapX
  have := Int.emod_lt_of_pos (pfXBase s.ctrl0 p + (n.xscroll p).toInt + (x * stepX (n.zoom p)) / 256) hpos
  omega

theorem mapY_lt (s : State) (n : LineSnap) (p : Fin 4) (y : Nat) : mapY s n p y < mapH := by
  have hpos : (0 : Int) < (mapH : Int) := by decide
  unfold mapY
  have := Int.emod_lt_of_pos (pfYBase s.ctrl0 p + (n.yscroll p).toInt + (y * stepY (n.zoom p)) / 256) hpos
  omega

/-- A sampled playfield cell is a whole cell of the grid area (R181, R182). -/
theorem pfCellAddrAt_lt (s : State) (n : LineSnap) (p : Fin 4) (x y : Nat) :
    pfCellAddrAt s.par p.val (mapX s n p x) (mapY s n p y) / 2 < 0x2000 ∧
      2 * (pfCellAddrAt s.par p.val (mapX s n p x) (mapY s n p y) / 2) =
        pfCellAddrAt s.par p.val (mapX s n p x) (mapY s n p y) := by
  have h1 := mapX_lt s n p x
  have h2 := mapY_lt s n p y
  unfold pfCellAddrAt cellAddr pfBase
  unfold mapW at h1
  unfold mapH mapRows at h2
  unfold mapCols at *
  cases he : s.par.extended
  · simp only [he, Bool.false_eq_true, if_false] at h1 ⊢; omega
  · simp only [he, if_true] at h1 ⊢; omega

theorem textAddr_lt (x y : Nat) : textAddr x y < 0x1000 := by unfold textAddr; omega

theorem pixElement_lt (so x y : Nat) : pixElement so x y < 2048 := by
  unfold pixElement pixLayerX pixLayerY; omega

theorem pixAttrAt_lt (so x y : Nat) : pixAttrAt so x y < 0x1000 := by
  unfold pixAttrAt pixAttrAddr pixLayerX pixLayerY; split <;> omega

/-! ### What the outputs depend on -/

/-- Two states that agree on the parameters, the RAM that LINE reads, the banks and the sprite buffers give the same
rows for every line: no other state is read (R45, R255). -/
theorem lineResult_congr {s t : State} (hpar : t.par = s.par) (hpf : t.pf = s.pf) (htxt : t.txt = s.txt)
    (hchr : t.chr = s.chr) (hlin : t.lin = s.lin) (hpiv : t.piv = s.piv) (h0 : t.ctrl0 = s.ctrl0)
    (h1 : t.ctrl1 = s.ctrl1) (hbuf : t.sprbuf = s.sprbuf) (y : Nat) : lineResult t y = lineResult s y := by
  cases s
  cases t
  simp only at *
  subst hpar hpf htxt hchr hlin hpiv h0 h1 hbuf
  rfl

/-! ### The entries a LINE leaves in the caches -/

/-- A fold whose one step establishes what every step keeps. -/
theorem foldl_establishes {σ α : Type} {P : σ → Prop} {f : σ → α → σ} {l : List α} {a : α} (ha : a ∈ l)
    (h : ∀ s, P (f s a)) (keeps : ∀ s, ∀ b ∈ l, P s → P (f s b)) (s : σ) : P (l.foldl f s) := by
  induction l generalizing s with
  | nil => simp at ha
  | cons b l ih =>
    have hk : ∀ s, ∀ c ∈ l, P s → P (f s c) := fun s c hc => keeps s c (List.mem_cons_of_mem _ hc)
    rcases List.mem_cons.1 ha with rfl | ha
    · exact foldl_keeps hk (h s)
    · exact ih ha hk (f s b)

/-- The caches `c` beside the RAM of `s` hold no stale entry. -/
abbrev Caches.Coherent (s : State) (c : Caches) : Prop := State.CacheCoherent { s with cache := c }

theorem touch_pix {n : LineSnap} (hs : pixSel n = true) (s : State) (y : Nat) (c : Caches) (x : Nat) :
    touch s n y .piv c x = { c with
      pix := Sparse.fill c.pix (pixAttrAt (pixYOff s.ctrl1) x y)
        (decodePixPal (readHalf s.txt (pixAttrAt (pixYOff s.ctrl1) x y)))
      piv := Sparse.fill c.piv (pixElement (pixYOff s.ctrl1) x y)
        (elementPens s.par s.piv (pixElement (pixYOff s.ctrl1) x y)) } := by
  rw [touch, if_pos hs]

theorem touch_text {n : LineSnap} (hs : ¬ pixSel n = true) (s : State) (y : Nat) (c : Caches) (x : Nat) :
    touch s n y .piv c x = { c with
      txt := Sparse.fill c.txt (textAddr x y) (decodeTextCell (readHalf s.txt (textAddr x y)))
      chr := Sparse.fill c.chr (decodeTextCell (readHalf s.txt (textAddr x y))).tile.toNat
        (elementPens s.par s.chr (decodeTextCell (readHalf s.txt (textAddr x y))).tile.toNat) } := by
  rw [touch, if_neg hs]

/-- Sampling decodes what it consults, so it makes no entry stale. -/
theorem touch_coherent (s : State) (n : LineSnap) (y : Nat) (l : Layer) {c : Caches} (x : Nat)
    (h : c.Coherent s) : (touch s n y l c x).Coherent s := by
  cases l with
  | sp g => exact h
  | pf p =>
    refine ⟨h.chr, h.piv, fun e he => ?_, h.txt, h.pix⟩
    have ha := pfCellAddrAt_lt s n p x y
    rcases Sparse.mem_fill he with rfl | he
    · exact ⟨ha.1, by simp only; rw [ha.2]⟩
    · exact h.pf e he
  | piv =>
    by_cases hs : pixSel n = true
    · rw [touch_pix hs]
      refine ⟨h.chr, fun e he => ?_, h.pf, h.txt, fun e he => ?_⟩
      · rcases Sparse.mem_fill he with rfl | he
        · exact ⟨pixElement_lt _ _ _, rfl⟩
        · exact h.piv e he
      · rcases Sparse.mem_fill he with rfl | he
        · exact ⟨pixAttrAt_lt _ _ _, rfl⟩
        · exact h.pix e he
    · rw [touch_text hs]
      refine ⟨fun e he => ?_, h.piv, h.pf, fun e he => ?_, h.pix⟩
      · rcases Sparse.mem_fill he with rfl | he
        · exact ⟨(decodeTextCell (readHalf s.txt (textAddr x y))).tile.isLt, rfl⟩
        · exact h.chr e he
      · rcases Sparse.mem_fill he with rfl | he
        · exact ⟨textAddr_lt _ _, rfl⟩
        · exact h.txt e he

theorem Caches.sorted_iff {c : Caches} :
    c.sorted = true ↔ Sparse.sorted c.chr = true ∧ Sparse.sorted c.piv = true ∧ Sparse.sorted c.pf = true ∧
      Sparse.sorted c.txt = true ∧ Sparse.sorted c.pix = true := by
  simp [Caches.sorted, and_assoc]

theorem touch_sorted (s : State) (n : LineSnap) (y : Nat) (l : Layer) {c : Caches} (x : Nat)
    (h : c.sorted = true) : (touch s n y l c x).sorted = true := by
  rw [Caches.sorted_iff] at *
  obtain ⟨h1, h2, h3, h4, h5⟩ := h
  cases l with
  | sp g => exact ⟨h1, h2, h3, h4, h5⟩
  | pf p => exact ⟨h1, h2, Sparse.sorted_fill _ _ h3, h4, h5⟩
  | piv =>
    by_cases hs : pixSel n = true
    · rw [touch_pix hs]
      exact ⟨h1, Sparse.sorted_fill _ _ h2, h3, h4, Sparse.sorted_fill _ _ h5⟩
    · rw [touch_text hs]
      exact ⟨Sparse.sorted_fill _ _ h1, h2, h3, Sparse.sorted_fill _ _ h4, h5⟩

/-- What every sample keeps of the caches, the whole line keeps. -/
theorem lineCaches_keeps {P : Caches → Prop} {s : State} {y : Nat}
    (h : ∀ (l : Layer) (c : Caches) (x : Nat), P c → P (touch s (latch s y) y l c x)) (hc : P s.cache) :
    P (lineCaches s y) :=
  foldl_keeps (fun _ l _ hc => foldl_keeps (fun c x _ hc => h l c x hc) hc) hc

/-- What sampling layer `l` at `x` establishes and every sample keeps, holds after the line when `l` reaches `x`. -/
theorem lineCaches_establishes {P : Caches → Prop} {s : State} {y : Nat} {l : Layer} {x : Nat}
    (hl : l ∈ Layer.all) (hx : x < s.par.screenW) (hr : reaches s (latch s y) l x = true)
    (here : ∀ c : Caches, P (touch s (latch s y) y l c x))
    (keeps : ∀ (l : Layer) (c : Caches) (x : Nat), P c → P (touch s (latch s y) y l c x)) :
    P (lineCaches s y) :=
  foldl_establishes hl
    (fun c => foldl_establishes (List.mem_filter.2 ⟨List.mem_range.2 hx, hr⟩) here (fun c x _ hc => keeps l c x hc) c)
    (fun _ l _ hc => foldl_keeps (fun c x _ hc => keeps l c x hc) hc) s.cache

theorem lineCaches_coherent {s : State} (y : Nat) (h : s.CacheCoherent) : (lineCaches s y).Coherent s :=
  lineCaches_keeps (P := fun c => c.Coherent s) (fun l _ x hc => touch_coherent s _ y l x hc) h

theorem lineCaches_sorted {s : State} (y : Nat) (h : s.cache.sorted = true) : (lineCaches s y).sorted = true :=
  lineCaches_keeps (P := fun c => c.sorted = true) (fun l _ x hc => touch_sorted s _ y l x hc) h

/-- A sample keeps every clean entry clean. -/
theorem touch_keeps_clean (s : State) (n : LineSnap) (y : Nat) (l : Layer) (c : Caches) (x : Nat) (k : Nat) :
    ((Sparse.find? c.chr k).isSome → (Sparse.find? (touch s n y l c x).chr k).isSome) ∧
    ((Sparse.find? c.piv k).isSome → (Sparse.find? (touch s n y l c x).piv k).isSome) ∧
    ((Sparse.find? c.pf k).isSome → (Sparse.find? (touch s n y l c x).pf k).isSome) ∧
    ((Sparse.find? c.txt k).isSome → (Sparse.find? (touch s n y l c x).txt k).isSome) ∧
    ((Sparse.find? c.pix k).isSome → (Sparse.find? (touch s n y l c x).pix k).isSome) := by
  have hf : ∀ {β : Type} (m : List (Nat × β)) (j : Nat) (v : β), (Sparse.find? m k).isSome →
      (Sparse.find? (Sparse.fill m j v) k).isSome := by
    intro β m j v h
    rw [Sparse.find?_fill]
    split
    · rfl
    · exact h
  cases l with
  | sp g => exact ⟨id, id, id, id, id⟩
  | pf p => exact ⟨id, id, hf _ _ _, id, id⟩
  | piv =>
    by_cases hs : pixSel n = true
    · rw [touch_pix hs]
      exact ⟨id, hf _ _ _, id, id, hf _ _ _⟩
    · rw [touch_text hs]
      exact ⟨hf _ _ _, id, id, hf _ _ _, id⟩

/-! ### A write makes stale only what it marks dirty -/

/-- The pens of an element read its sixteen halfwords alone (R171). -/
theorem elementPens_writeHalf (p : Params) (m : Memory) {a t : Nat} (v : Half) (h : t ≠ a / 16) :
    elementPens p (writeHalf m a v) t = elementPens p m t := by
  unfold elementPens elementPen
  refine List.map_congr_left fun i _ => ?_
  have hb := (charPacking p t (i % 8) (i / 8)).1.isLt
  simp only
  rw [readHalf_writeHalf_ne _ _ (by omega)]

theorem pfCellAt_writeHalf (m : Memory) {a k : Nat} (v : Half) (h : k ≠ a / 2) :
    pfCellAt (writeHalf m a v) (2 * k) = pfCellAt m (2 * k) := by
  unfold pfCellAt
  rw [readHalf_writeHalf_ne _ _ (by omega), readHalf_writeHalf_ne _ _ (by omega)]

/-- A region write leaves no stale entry: the entries it does not mark dirty decode what they decoded (R151..R156). -/
theorem memWrite_coherent {s : State} (r : Region) (a : Nat) (v : Half) (ln : BitVec 2) (h : s.CacheCoherent) :
    State.CacheCoherent { memWrite s r a v ln with cache := markDirty s.cache r a } := by
  cases r with
  | spr => exact ⟨h.chr, h.piv, h.pf, h.txt, h.pix⟩
  | lin => exact ⟨h.chr, h.piv, h.pf, h.txt, h.pix⟩
  | pf =>
    have hcase : ∀ e ∈ (markDirty s.cache .pf a).pf, e ∈ s.cache.pf ∧ (e.1 < 0x2000 → e.1 ≠ a / 2) := by
      intro e he
      unfold markDirty at he
      by_cases ha : a < 0x4000
      · simp only [ha, if_true] at he
        exact ⟨(Sparse.mem_del.1 he).1, fun _ => (Sparse.mem_del.1 he).2⟩
      · simp only [ha, if_false] at he
        exact ⟨he, fun _ => by omega⟩
    have hsame : (markDirty s.cache .pf a).chr = s.cache.chr ∧ (markDirty s.cache .pf a).piv = s.cache.piv ∧
        (markDirty s.cache .pf a).txt = s.cache.txt ∧ (markDirty s.cache .pf a).pix = s.cache.pix := by
      unfold markDirty
      by_cases ha : a < 0x4000 <;> simp [ha]
    refine ⟨fun e he => h.chr e ?_, fun e he => h.piv e ?_, fun e he => ?_, fun e he => h.txt e ?_,
      fun e he => h.pix e ?_⟩
    · exact hsame.1 ▸ he
    · exact hsame.2.1 ▸ he
    · obtain ⟨hm, hne⟩ := hcase e he
      obtain ⟨hk, hv⟩ := h.pf e hm
      exact ⟨hk, hv.trans (pfCellAt_writeHalf s.pf _ (hne hk)).symm⟩
    · exact hsame.2.2.1 ▸ he
    · exact hsame.2.2.2 ▸ he
  | txt =>
    refine ⟨h.chr, h.piv, h.pf, fun e he => ?_, fun e he => ?_⟩
    · obtain ⟨hm, hne⟩ := Sparse.mem_del.1 he
      obtain ⟨hk, hv⟩ := h.txt e hm
      refine ⟨hk, hv.trans (congrArg decodeTextCell ?_)⟩
      exact (readHalf_writeHalf_ne s.txt _ hne).symm
    · obtain ⟨hm, hne⟩ := Sparse.mem_del.1 he
      obtain ⟨hk, hv⟩ := h.pix e hm
      refine ⟨hk, hv.trans (congrArg decodePixPal ?_)⟩
      exact (readHalf_writeHalf_ne s.txt _ hne).symm
  | chr =>
    refine ⟨fun e he => ?_, h.piv, h.pf, h.txt, h.pix⟩
    obtain ⟨hm, hne⟩ := Sparse.mem_del.1 he
    obtain ⟨hk, hv⟩ := h.chr e hm
    exact ⟨hk, hv.trans (elementPens_writeHalf s.par s.chr _ hne).symm⟩
  | piv =>
    refine ⟨h.chr, fun e he => ?_, h.pf, h.txt, h.pix⟩
    obtain ⟨hm, hne⟩ := Sparse.mem_del.1 he
    obtain ⟨hk, hv⟩ := h.piv e hm
    exact ⟨hk, hv.trans (elementPens_writeHalf s.par s.piv _ hne).symm⟩

theorem markDirty_sorted {c : Caches} (r : Region) (a : Nat) (h : c.sorted = true) :
    (markDirty c r a).sorted = true := by
  rw [Caches.sorted_iff] at *
  obtain ⟨h1, h2, h3, h4, h5⟩ := h
  cases r with
  | spr => exact ⟨h1, h2, h3, h4, h5⟩
  | lin => exact ⟨h1, h2, h3, h4, h5⟩
  | pf =>
    unfold markDirty
    by_cases ha : a < 0x4000
    · simp only [ha, if_true]
      exact ⟨h1, h2, Sparse.sorted_del _ h3, h4, h5⟩
    · simp only [ha, if_false]
      exact ⟨h1, h2, h3, h4, h5⟩
  | txt => exact ⟨h1, h2, h3, Sparse.sorted_del _ h4, Sparse.sorted_del _ h5⟩
  | chr => exact ⟨Sparse.sorted_del _ h1, h2, h3, h4, h5⟩
  | piv => exact ⟨h1, Sparse.sorted_del _ h2, h3, h4, h5⟩

end Sys2Proof.Machine
end

