-- ==== Sys2Proof/Laws/Decode.lean ====
section
/-! SUPPORT. The laws of command words: their fields, that a word spells at most one row, and which row an encoded
word spells. -/

namespace Sys2Proof

/-! ### A word is its fields -/

theorem word_eq_fields (w : Word) :
    opField w ++ selField w ++ rsvField w ++ lnField w ++ addrField w ++ dataField w = w := by
  apply BitVec.eq_of_getLsbD_eq
  intro i hi
  simp only [opField, selField, rsvField, lnField, addrField, dataField, BitVec.getLsbD_append,
    BitVec.getLsbD_extractLsb']
  by_cases h1 : i < 16
  · simp [h1]
  by_cases h2 : i - 16 < 32
  · simp [h1, h2, show 16 + (i - 16) = i by omega]
  by_cases h3 : i - 16 - 32 < 2
  · simp [h1, h2, h3, show 48 + (i - 16 - 32) = i by omega]
  by_cases h4 : i - 16 - 32 - 2 < 6
  · simp [h1, h2, h3, h4, show 50 + (i - 16 - 32 - 2) = i by omega]
  by_cases h5 : i - 16 - 32 - 2 - 6 < 4
  · simp [h1, h2, h3, h4, h5, show 56 + (i - 16 - 32 - 2 - 6) = i by omega]
  · simp [h1, h2, h3, h4, h5, show i - 16 - 32 - 2 - 6 - 4 < 4 by omega,
      show 60 + (i - 16 - 32 - 2 - 6 - 4) = i by omega]

/-- A bit of `pack`. -/
theorem pack_getLsbD (op sel : BitVec 4) (ln : BitVec 2) (a : Nat) (v : Half) (i : Nat) :
    (pack op sel ln a v).getLsbD i =
      if i < 16 then v.getLsbD i
      else if i < 48 then (BitVec.ofNat 32 a).getLsbD (i - 16)
      else if i < 50 then ln.getLsbD (i - 48)
      else if i < 56 then false
      else if i < 60 then sel.getLsbD (i - 56)
      else op.getLsbD (i - 60) := by
  have h : (pack op sel ln a v).getLsbD i =
    BitVec.getLsbD (w := 4 + 4 + 6 + 2 + 32 + 16) (op ++ sel ++ 0#6 ++ ln ++ BitVec.ofNat 32 a ++ v) i := rfl
  rw [h]
  simp only [BitVec.getLsbD_append, BitVec.getLsbD_zero, Nat.sub_sub]
  split
  · rfl
  · repeat' split
    all_goals first | rfl | omega

/-- The fields of `pack`. -/
theorem pack_fields (op sel : BitVec 4) (ln : BitVec 2) (a : Nat) (v : Half) :
    opField (pack op sel ln a v) = op ∧ selField (pack op sel ln a v) = sel ∧
    rsvField (pack op sel ln a v) = 0#6 ∧ lnField (pack op sel ln a v) = ln ∧
    addrField (pack op sel ln a v) = BitVec.ofNat 32 a ∧ dataField (pack op sel ln a v) = v := by
  have bit : ∀ (st n : Nat) (i : Nat), i < n →
      ((pack op sel ln a v).extractLsb' st n).getLsbD i = (pack op sel ln a v).getLsbD (st + i) := by
    intro st n i hi
    simp [hi]
  refine ⟨?_, ?_, ?_, ?_, ?_, ?_⟩ <;> apply BitVec.eq_of_getLsbD_eq <;> intro i hi
  all_goals
    simp only [opField, selField, rsvField, lnField, addrField, dataField]
    rw [bit _ _ _ hi, pack_getLsbD]
    repeat' split
    all_goals first | (exfalso; omega) | simp

theorem addrField_toNat_lt (w : Word) : (addrField w).toNat < 2 ^ 32 := (addrField w).isLt

theorem addr_roundtrip {a : Nat} (h : fitsAddr a = true) : (BitVec.ofNat 32 a).toNat = a := by
  rw [BitVec.toNat_ofNat]
  exact Nat.mod_eq_of_lt (of_decide_eq_true h)

/-- A word whose `RSV` bits are 0 is the pack of its other fields. -/
theorem pack_of_fields {w : Word} (h : rsvField w = 0#6) :
    pack (opField w) (selField w) (lnField w) (addrField w).toNat (dataField w) = w := by
  have h0 := word_eq_fields w
  rw [h] at h0
  simpa [pack] using h0

/-! ### Masks -/

theorem maskWrite_getLsbD : ∀ i < 64, maskWrite.getLsbD i = decide (50 ≤ i) := by decide

theorem maskAddr_getLsbD : ∀ i < 64, maskAddr.getLsbD i = decide (i < 16 ∨ 48 ≤ i) := by decide

theorem pack_and_maskWrite (op sel : BitVec 4) (ln : BitVec 2) (a : Nat) (v : Half) :
    pack op sel ln a v &&& maskWrite = pack op sel 0 0 0 := by
  apply BitVec.eq_of_getLsbD_eq
  intro i hi
  rw [BitVec.getLsbD_and, maskWrite_getLsbD i hi, pack_getLsbD, pack_getLsbD]
  by_cases h : 50 ≤ i
  · simp [h, show ¬ i < 16 by omega, show ¬ i < 48 by omega, show ¬ i < 50 by omega]
  · simp only [h, decide_false, Bool.and_false]
    repeat' split
    all_goals first | (exfalso; omega) | simp

theorem pack_and_maskAddr (op sel : BitVec 4) (a : Nat) :
    pack op sel 0 a 0 &&& maskAddr = pack op sel 0 0 0 := by
  apply BitVec.eq_of_getLsbD_eq
  intro i hi
  rw [BitVec.getLsbD_and, maskAddr_getLsbD i hi, pack_getLsbD, pack_getLsbD]
  by_cases h : i < 16 ∨ 48 ≤ i
  · simp only [h, decide_true, Bool.and_true]
    repeat' split
    all_goals first | rfl | (exfalso; omega)
  · simp only [h, decide_false, Bool.and_false]
    repeat' split
    all_goals first | (exfalso; omega) | simp

theorem and_maskNone (w : Word) : w &&& maskNone = w := by
  have : maskNone = BitVec.allOnes 64 := by decide
  rw [this, BitVec.and_allOnes]

/-! ### One row at most -/

theorem OpRow.spells_iff {r : OpRow} {w : Word} : r.spells w = true ↔ w &&& r.mask = r.pattern := by
  simp [OpRow.spells]

/-- Two rows that one word can spell agree where both masks look. -/
theorem rows_agree_of_spells {r r' : OpRow} {w : Word} (h : w &&& r.mask = r.pattern)
    (h' : w &&& r'.mask = r'.pattern) : r.pattern &&& r'.mask = r'.pattern &&& r.mask := by
  rw [← h, ← h', BitVec.and_assoc, BitVec.and_assoc, BitVec.and_comm r.mask]

/-- Every two different rows of the table differ where both masks look. -/
theorem rows_disjoint : opcodeTable.Pairwise (fun r r' => r.pattern &&& r'.mask ≠ r'.pattern &&& r.mask) := by
  unfold opcodeTable
  decide

theorem find?_of_pairwise {l : List OpRow} {w : Word}
    (hp : l.Pairwise (fun r r' => r.pattern &&& r'.mask ≠ r'.pattern &&& r.mask)) {r : OpRow} (hr : r ∈ l)
    (h : w &&& r.mask = r.pattern) : l.find? (·.spells w) = some r := by
  induction l with
  | nil => simp at hr
  | cons r0 l ih =>
    obtain ⟨h1, h2⟩ := List.pairwise_cons.1 hp
    rcases List.mem_cons.1 hr with he | hm
    · subst he; simp [List.find?, OpRow.spells_iff.2 h]
    · have : r0.spells w = false := by
        cases hs : r0.spells w with
        | false => rfl
        | true => exact absurd (rows_agree_of_spells (OpRow.spells_iff.1 hs) h) (h1 r hm)
      simp [List.find?, this, ih h2 hm]

/-- A word that spells a row of R114 decodes to that row's instruction. -/
theorem decode_of_spells {r : OpRow} (hr : r ∈ opcodeTable) {w : Word} (h : w &&& r.mask = r.pattern) :
    decode w = .ok (r.make (addrField w).toNat (dataField w) (lnField w)) := by
  unfold decode
  rw [find?_of_pairwise rows_disjoint hr h]

theorem decode_of_no_row {w : Word} (h : ∀ r ∈ opcodeTable, w &&& r.mask ≠ r.pattern) :
    decode w = .error .illegalEncoding := by
  unfold decode
  have : opcodeTable.find? (·.spells w) = none :=
    List.find?_eq_none.2 fun r hr hs => h r hr (OpRow.spells_iff.1 hs)
  rw [this]

/-- A word that decodes spells the row it is decoded by. -/
theorem row_of_decode {w : Word} {i : Instr} (h : decode w = .ok i) :
    ∃ r ∈ opcodeTable, w &&& r.mask = r.pattern ∧ i = r.make (addrField w).toNat (dataField w) (lnField w) := by
  unfold decode at h
  cases hf : opcodeTable.find? (·.spells w) with
  | none => rw [hf] at h; cases h
  | some r =>
    rw [hf] at h
    cases h
    exact ⟨r, List.mem_of_find?_eq_some hf, OpRow.spells_iff.1 (List.find?_some (p := fun r : OpRow => r.spells w) hf), rfl⟩

/-! ### The fields a mask fixes -/

theorem fields_and (w m : Word) :
    opField (w &&& m) = opField w &&& opField m ∧ selField (w &&& m) = selField w &&& selField m ∧
    rsvField (w &&& m) = rsvField w &&& rsvField m ∧ lnField (w &&& m) = lnField w &&& lnField m ∧
    addrField (w &&& m) = addrField w &&& addrField m ∧ dataField (w &&& m) = dataField w &&& dataField m := by
  simp [opField, selField, rsvField, lnField, addrField, dataField, BitVec.extractLsb'_and]

/-- A word that spells a row with the operands ADDR, DATA and LN. -/
theorem fields_of_maskWrite {w : Word} {op sel : BitVec 4} (h : w &&& maskWrite = pack op sel 0 0 0) :
    opField w = op ∧ selField w = sel ∧ rsvField w = 0#6 := by
  have hw := fields_and w maskWrite
  have hp := pack_fields op sel 0 0 0
  rw [h] at hw
  have e1 : opField maskWrite = BitVec.allOnes 4 := by decide
  have e2 : selField maskWrite = BitVec.allOnes 4 := by decide
  have e3 : rsvField maskWrite = BitVec.allOnes 6 := by decide
  rw [e1, e2, e3, BitVec.and_allOnes, BitVec.and_allOnes, BitVec.and_allOnes] at hw
  exact ⟨hw.1.symm.trans hp.1, hw.2.1.symm.trans hp.2.1, hw.2.2.1.symm.trans hp.2.2.1⟩

/-- A word that spells a row with the operand ADDR alone. -/
theorem fields_of_maskAddr {w : Word} {op sel : BitVec 4} (h : w &&& maskAddr = pack op sel 0 0 0) :
    opField w = op ∧ selField w = sel ∧ rsvField w = 0#6 ∧ lnField w = 0#2 ∧ dataField w = 0#16 := by
  have hw := fields_and w maskAddr
  have hp := pack_fields op sel 0 0 0
  rw [h] at hw
  have e1 : opField maskAddr = BitVec.allOnes 4 := by decide
  have e2 : selField maskAddr = BitVec.allOnes 4 := by decide
  have e3 : rsvField maskAddr = BitVec.allOnes 6 := by decide
  have e4 : lnField maskAddr = BitVec.allOnes 2 := by decide
  have e5 : dataField maskAddr = BitVec.allOnes 16 := by decide
  rw [e1, e2, e3, e4, e5, BitVec.and_allOnes, BitVec.and_allOnes, BitVec.and_allOnes, BitVec.and_allOnes,
    BitVec.and_allOnes] at hw
  exact ⟨hw.1.symm.trans hp.1, hw.2.1.symm.trans hp.2.1, hw.2.2.1.symm.trans hp.2.2.1,
    hw.2.2.2.1.symm.trans hp.2.2.2.1, hw.2.2.2.2.2.symm.trans hp.2.2.2.2.2⟩

/-- A word that spells a row with operands is the pack of its fields. -/
theorem pack_of_maskWrite {w : Word} {op sel : BitVec 4} (h : w &&& maskWrite = pack op sel 0 0 0) :
    pack op sel (lnField w) (addrField w).toNat (dataField w) = w := by
  obtain ⟨h1, h2, h3⟩ := fields_of_maskWrite h
  rw [← h1, ← h2]
  exact pack_of_fields h3

theorem pack_of_maskAddr {w : Word} {op sel : BitVec 4} (h : w &&& maskAddr = pack op sel 0 0 0) :
    pack op sel 0 (addrField w).toNat 0 = w := by
  obtain ⟨h1, h2, h3, h4, h5⟩ := fields_of_maskAddr h
  have := pack_of_fields h3
  rw [h1, h2, h4, h5] at this
  exact this

end Sys2Proof
end

