-- ==== Sys2Proof/Laws/Mux.lean ====
section
/-! SUPPORT. The laws of the layer order (R270) and of the mix of a column (R248, R273, R275). -/

namespace Sys2Proof.Machine

/-- The nine layers are all the layers (R246). -/
theorem Layer.mem_all (l : Layer) : l ∈ Layer.all := by
  cases l with
  | piv => decide
  | sp g => revert g; decide
  | pf q => revert q; decide

/-! ### The order of R270 -/

theorem notAbove_iff {p : Params} {n : LineSnap} {a b : Layer} :
    notAbove p n a b = true ↔
      (layerPrio n a).toNat < (layerPrio n b).toNat ∨
        ((layerPrio n a).toNat = (layerPrio n b).toNat ∧ tieRank p a ≤ tieRank p b) := by
  simp [notAbove, BitVec.toNat_inj]

theorem notAbove_total (p : Params) (n : LineSnap) (a b : Layer) :
    notAbove p n a b = true ∨ notAbove p n b a = true := by
  rw [notAbove_iff, notAbove_iff]; omega

theorem notAbove_trans {p : Params} {n : LineSnap} {a b c : Layer} (h : notAbove p n a b = true)
    (h' : notAbove p n b c = true) : notAbove p n a c = true := by
  rw [notAbove_iff] at *; omega

/-- Every layer has a position in a tie order that is a permutation of the nine layers. -/
theorem mem_tieOrder {p : Params} (hp : p.Ok) (l : Layer) : l ∈ p.tieOrder :=
  (List.isPerm_iff.1 hp.tieOrder).symm.subset (Layer.mem_all l)

/-- Ranks tell layers apart. -/
theorem tieRank_inj {p : Params} (hp : p.Ok) {a b : Layer} (h : tieRank p a = tieRank p b) : a = b :=
  (List.idxOf_inj (mem_tieOrder hp a)).1 h

theorem notAbove_antisymm {p : Params} (hp : p.Ok) {n : LineSnap} {a b : Layer} (h : notAbove p n a b = true)
    (h' : notAbove p n b a = true) : a = b := by
  rw [notAbove_iff] at *
  exact tieRank_inj hp (by omega)

/-- The order holds the nine layers, each once. -/
theorem layerOrder_perm (p : Params) (n : LineSnap) : (layerOrder p n).Perm Layer.all :=
  List.perm_insertionSort _ _

theorem mem_layerOrder (p : Params) (n : LineSnap) (l : Layer) : l ∈ layerOrder p n :=
  (layerOrder_perm p n).symm.subset (Layer.mem_all l)

theorem layerOrder_nodup (p : Params) (n : LineSnap) : (layerOrder p n).Nodup :=
  (layerOrder_perm p n).nodup_iff.2 (by decide)

/-- The order ascends. -/
theorem layerOrder_sorted (p : Params) (n : LineSnap) :
    (layerOrder p n).Pairwise (fun a b => notAbove p n a b = true) := by
  have : Std.Total (fun a b => notAbove p n a b = true) := ⟨notAbove_total p n⟩
  have : IsTrans Layer (fun a b => notAbove p n a b = true) := ⟨fun _ _ _ => notAbove_trans⟩
  exact List.pairwise_insertionSort _ _

/-! ### The mix of a column -/

/-- The layers that supply a pixel at a column, the most overdrawn first. -/
def suppliers (s : State) (n : LineSnap) (y x : Nat) : List Layer :=
  (layerOrder s.par n).filter (supplies s n y x)

theorem mem_suppliers {s : State} {n : LineSnap} {y x : Nat} {l : Layer} :
    l ∈ suppliers s n y x ↔ supplies s n y x l = true := by
  simp [suppliers, mem_layerOrder]

theorem suppliers_sorted (s : State) (n : LineSnap) (y x : Nat) :
    (suppliers s n y x).Pairwise (fun a b => notAbove s.par n a b = true) :=
  (layerOrder_sorted s.par n).filter _

theorem suppliers_nodup (s : State) (n : LineSnap) (y x : Nat) : (suppliers s n y x).Nodup :=
  (layerOrder_nodup s.par n).filter _

/-- The update of a layer that supplies a pixel. -/
def supply (s : State) (n : LineSnap) (y x : Nat) (a : Acc) (l : Layer) : Acc :=
  muxUpdate n a l (sample s n l x y)

/-- Only the layers that supply a pixel matter to a column (R275). -/
theorem columnAcc_eq (s : State) (n : LineSnap) (y x : Nat) :
    columnAcc s n y x = (suppliers s n y x).foldl (supply s n y x) Acc.empty := by
  unfold columnAcc suppliers
  rw [List.foldl_filter]
  rfl

/-- The accumulator after the last of the supplying layers. -/
theorem columnAcc_of_append {s : State} {n : LineSnap} {y x : Nat} {ls : List Layer} {top : Layer}
    (h : suppliers s n y x = ls ++ [top]) :
    columnAcc s n y x = muxUpdate n (ls.foldl (supply s n y x) Acc.empty) top (sample s n top x y) := by
  rw [columnAcc_eq, h, List.foldl_append]
  rfl

/-- With a parameter record in R7's ranges, the last of the supplying layers is the top of R292. -/
theorem suppliers_of_isTopLayer {s : State} {n : LineSnap} {y x : Nat} {top : Layer} (hp : s.par.Ok)
    (h : IsTopLayer s n y x top) : ∃ ls, suppliers s n y x = ls ++ [top] := by
  have hm := mem_suppliers.2 h.1
  have hne : suppliers s n y x ≠ [] := List.ne_nil_of_mem hm
  refine ⟨(suppliers s n y x).dropLast, ?_⟩
  have hl := List.dropLast_concat_getLast hne
  have hs := suppliers_sorted s n y x
  rw [← hl] at hs hm
  have hlast := h.2 _ (mem_suppliers.1 (List.getLast_mem hne))
  rcases List.mem_append.1 hm with hd | hd
  · have := (List.pairwise_append.1 hs).2.2 top hd _ (List.mem_singleton.2 rfl)
    rw [notAbove_antisymm hp this hlast]
    exact hl.symm
  · rw [List.mem_singleton.1 hd]
    exact hl.symm

/-- The layer under the top is the last but one. -/
theorem suppliers_of_isUnderLayer {s : State} {n : LineSnap} {y x : Nat} {ls : List Layer} {top under : Layer}
    (hp : s.par.Ok) (hl : suppliers s n y x = ls ++ [top]) (h : IsUnderLayer s n y x top under) :
    ∃ ms, ls = ms ++ [under] := by
  have hm := mem_suppliers.2 h.1
  have hnd := suppliers_nodup s n y x
  have hs := suppliers_sorted s n y x
  rw [hl] at hm hnd hs
  have hu : under ∈ ls := by
    rcases List.mem_append.1 hm with hd | hd
    · exact hd
    · exact absurd (List.mem_singleton.1 hd) h.2.1
  have hne : ls ≠ [] := List.ne_nil_of_mem hu
  refine ⟨ls.dropLast, ?_⟩
  have hcat := List.dropLast_concat_getLast hne
  have hlast : ls.getLast hne ∈ ls := List.getLast_mem hne
  have hnt : ls.getLast hne ≠ top := fun he =>
    (List.nodup_append.1 hnd).2.2 _ hlast _ (List.mem_singleton.2 rfl) he
  have hle := h.2.2 _ (mem_suppliers.1 (hl ▸ List.mem_append_left _ hlast)) hnt
  have hsl := (List.pairwise_append.1 hs).1
  rw [← hcat] at hsl hu
  rcases List.mem_append.1 hu with hd | hd
  · have := (List.pairwise_append.1 hsl).2.2 under hd _ (List.mem_singleton.2 rfl)
    rw [notAbove_antisymm hp this hle]
    exact hcat.symm
  · rw [List.mem_singleton.1 hd]
    exact hcat.symm

/-- A column that some layer supplies has a top. -/
theorem exists_isTopLayer {s : State} {n : LineSnap} {y x : Nat} {l : Layer} (h : supplies s n y x l = true) :
    ∃ top, IsTopLayer s n y x top := by
  have hne : suppliers s n y x ≠ [] := List.ne_nil_of_mem (mem_suppliers.2 h)
  refine ⟨(suppliers s n y x).getLast hne, mem_suppliers.1 (List.getLast_mem hne), fun l' hl' => ?_⟩
  have hm := mem_suppliers.2 hl'
  have hs := suppliers_sorted s n y x
  have hcat := List.dropLast_concat_getLast hne
  rw [← hcat] at hm hs
  rcases List.mem_append.1 hm with hd | hd
  · exact (List.pairwise_append.1 hs).2.2 l' hd _ (List.mem_singleton.2 rfl)
  · rw [List.mem_singleton.1 hd, notAbove_iff]; omega

end Sys2Proof.Machine
end

