-- ==== Sys2Proof/Laws/PerInstr.lean ====
section
/-! SUPPORT. Laws for every command as syntax, one lemma per constructor: the encoded word spells the row of R114 that
bears the command's name, whatever its operands. -/

namespace Sys2Proof

/-- The name of a command's row (R114). -/
def Instr.mnemonic : Instr → String
  | .nop => "NOP"
  | .wrspr _ _ _ => "WRSPR"
  | .wrpf _ _ _ => "WRPF"
  | .wrtxt _ _ _ => "WRTXT"
  | .wrchr _ _ _ => "WRCHR"
  | .wrlin _ _ _ => "WRLIN"
  | .wrpiv _ _ _ => "WRPIV"
  | .rdspr _ => "RDSPR"
  | .rdpf _ => "RDPF"
  | .rdtxt _ => "RDTXT"
  | .rdchr _ => "RDCHR"
  | .rdlin _ => "RDLIN"
  | .rdpiv _ => "RDPIV"
  | .cwr0 _ _ _ => "CWR0"
  | .cwr1 _ _ _ => "CWR1"
  | .crd0 _ => "CRD0"
  | .crd1 _ => "CRD1"
  | .frame => "FRAME"
  | .line _ => "LINE"
  | .reset => "RESET"

/-- The encoded word spells the row that bears the command's name. -/
def Laws.SpellsItsRow.Statement (i : Instr) : Prop :=
  ∃ r ∈ opcodeTable, r.mnemonic = i.mnemonic ∧ encode i &&& r.mask = r.pattern

/-- The table's row at a place. -/
theorem Laws.spellsItsRow_of_index {i : Instr} (k : Fin 20)
    (h : (opcodeTable[k.val]'k.isLt).mnemonic = i.mnemonic ∧
      encode i &&& (opcodeTable[k.val]'k.isLt).mask = (opcodeTable[k.val]'k.isLt).pattern) :
    Laws.SpellsItsRow.Statement i :=
  ⟨_, List.getElem_mem _, h⟩

theorem Laws.SpellsItsRow.nop : Laws.SpellsItsRow.Statement .nop :=
  Laws.spellsItsRow_of_index 0 ⟨rfl, and_maskNone _⟩

theorem Laws.SpellsItsRow.wrspr (a : Nat) (v : Half) (ln : BitVec 2) :
    Laws.SpellsItsRow.Statement (.wrspr a v ln) :=
  Laws.spellsItsRow_of_index 1 ⟨rfl, pack_and_maskWrite 1 0 ln a v⟩

theorem Laws.SpellsItsRow.wrpf (a : Nat) (v : Half) (ln : BitVec 2) :
    Laws.SpellsItsRow.Statement (.wrpf a v ln) :=
  Laws.spellsItsRow_of_index 2 ⟨rfl, pack_and_maskWrite 1 1 ln a v⟩

theorem Laws.SpellsItsRow.wrtxt (a : Nat) (v : Half) (ln : BitVec 2) :
    Laws.SpellsItsRow.Statement (.wrtxt a v ln) :=
  Laws.spellsItsRow_of_index 3 ⟨rfl, pack_and_maskWrite 1 2 ln a v⟩

theorem Laws.SpellsItsRow.wrchr (a : Nat) (v : Half) (ln : BitVec 2) :
    Laws.SpellsItsRow.Statement (.wrchr a v ln) :=
  Laws.spellsItsRow_of_index 4 ⟨rfl, pack_and_maskWrite 1 3 ln a v⟩

theorem Laws.SpellsItsRow.wrlin (a : Nat) (v : Half) (ln : BitVec 2) :
    Laws.SpellsItsRow.Statement (.wrlin a v ln) :=
  Laws.spellsItsRow_of_index 5 ⟨rfl, pack_and_maskWrite 1 4 ln a v⟩

theorem Laws.SpellsItsRow.wrpiv (a : Nat) (v : Half) (ln : BitVec 2) :
    Laws.SpellsItsRow.Statement (.wrpiv a v ln) :=
  Laws.spellsItsRow_of_index 6 ⟨rfl, pack_and_maskWrite 1 5 ln a v⟩

theorem Laws.SpellsItsRow.rdspr (a : Nat) : Laws.SpellsItsRow.Statement (.rdspr a) :=
  Laws.spellsItsRow_of_index 7 ⟨rfl, pack_and_maskAddr 2 0 a⟩

theorem Laws.SpellsItsRow.rdpf (a : Nat) : Laws.SpellsItsRow.Statement (.rdpf a) :=
  Laws.spellsItsRow_of_index 8 ⟨rfl, pack_and_maskAddr 2 1 a⟩

theorem Laws.SpellsItsRow.rdtxt (a : Nat) : Laws.SpellsItsRow.Statement (.rdtxt a) :=
  Laws.spellsItsRow_of_index 9 ⟨rfl, pack_and_maskAddr 2 2 a⟩

theorem Laws.SpellsItsRow.rdchr (a : Nat) : Laws.SpellsItsRow.Statement (.rdchr a) :=
  Laws.spellsItsRow_of_index 10 ⟨rfl, pack_and_maskAddr 2 3 a⟩

theorem Laws.SpellsItsRow.rdlin (a : Nat) : Laws.SpellsItsRow.Statement (.rdlin a) :=
  Laws.spellsItsRow_of_index 11 ⟨rfl, pack_and_maskAddr 2 4 a⟩

theorem Laws.SpellsItsRow.rdpiv (a : Nat) : Laws.SpellsItsRow.Statement (.rdpiv a) :=
  Laws.spellsItsRow_of_index 12 ⟨rfl, pack_and_maskAddr 2 5 a⟩

theorem Laws.SpellsItsRow.cwr0 (i : Nat) (v : Half) (ln : BitVec 2) :
    Laws.SpellsItsRow.Statement (.cwr0 i v ln) :=
  Laws.spellsItsRow_of_index 13 ⟨rfl, pack_and_maskWrite 3 0 ln i v⟩

theorem Laws.SpellsItsRow.cwr1 (i : Nat) (v : Half) (ln : BitVec 2) :
    Laws.SpellsItsRow.Statement (.cwr1 i v ln) :=
  Laws.spellsItsRow_of_index 14 ⟨rfl, pack_and_maskWrite 3 1 ln i v⟩

theorem Laws.SpellsItsRow.crd0 (i : Nat) : Laws.SpellsItsRow.Statement (.crd0 i) :=
  Laws.spellsItsRow_of_index 15 ⟨rfl, pack_and_maskAddr 4 0 i⟩

theorem Laws.SpellsItsRow.crd1 (i : Nat) : Laws.SpellsItsRow.Statement (.crd1 i) :=
  Laws.spellsItsRow_of_index 16 ⟨rfl, pack_and_maskAddr 4 1 i⟩

theorem Laws.SpellsItsRow.frame : Laws.SpellsItsRow.Statement .frame :=
  Laws.spellsItsRow_of_index 17 ⟨rfl, and_maskNone _⟩

theorem Laws.SpellsItsRow.line (y : Nat) : Laws.SpellsItsRow.Statement (.line y) :=
  Laws.spellsItsRow_of_index 18 ⟨rfl, pack_and_maskAddr 6 0 y⟩

theorem Laws.SpellsItsRow.reset : Laws.SpellsItsRow.Statement .reset :=
  Laws.spellsItsRow_of_index 19 ⟨rfl, and_maskNone _⟩

end Sys2Proof
end

