-- ==== Sys2Proof/Tests/Slice0.lean ====
section
/-! SUPPORT. Tests: ill-formed terms, the words of the spec's encodings, worked vectors of 95_test_vectors.md, and a
witness for the hypotheses of every statement that has some. Expected values are the spec's. -/

namespace Sys2Proof.Tests

open Sys2Proof.Machine

/-! ### Helpers -/

/-- Two columns of the fixture of 95_test_vectors.md section 0: `PFPen(0x20, ..)` is 0x37, `SprPenLo(1, ..)` is 8,
and `PAL_F` at the indices the tests show. -/
def fixture : Params := { Params.defaults with
  screenW := 2
  visH := 256
  pfLo := (List.range 16).map (fun px => (romKey 0x20 px 0, 7#4))
  pfHi := (List.range 16).map (fun px => (romKey 0x20 px 0, 0x30#6))
  sprLo := (List.range 16).map (fun px => (romKey 1 px 0, 8#4))
  palette := [(0x017, ⟨0#8, 17#8, 119#8⟩), (0x027, ⟨0#8, 34#8, 119#8⟩), (0x0F8, ⟨0#8, 255#8, 136#8⟩)] }

/-- The power-on state with the fixture and some halfwords written. -/
def state (ws : List (Region × Nat × Half)) : State :=
  ws.foldl (fun s w => memWrite s w.1 w.2.1 w.2.2 3#2) (State.powerOn fixture Draws.zero)

/-- The power-on state with some words waiting. -/
def issued (ws : List Word) : State := { State.powerOn fixture Draws.zero with stream := ws }

/-- The next state of a command, if it gives one. -/
def after (i : Instr) (s : State) : Option State :=
  match exec i s with
  | .next t => some t
  | _ => none

/-- What a run returns and its mark. -/
def runs (s : State) : Option (List Result × Option Reason) :=
  match s.run with
  | .next t => some (t.out, t.mark)
  | _ => none

theorem run_of_runs {s : State} {r : List Result × Option Reason} (h : runs s = some r) :
    ∃ t, s.run = .next t ∧ t.out = r.1 ∧ t.mark = r.2 := by
  unfold runs at h
  cases hr : s.run with
  | next t => rw [hr] at h; cases h; exact ⟨t, rfl, rfl, rfl⟩
  | fault e => rw [hr] at h; cases h
  | refused e => rw [hr] at h; cases h

/-! ### WellFormed refuses an operand that does not fit ADDR -/

theorem test_wf_refuses_wide_writes :
    ((Instr.wrspr (2 ^ 32) 0#16 3#2).wf = false ∧ (Instr.wrpf (2 ^ 32) 0#16 3#2).wf = false) ∧
    ((Instr.wrtxt (2 ^ 32) 0#16 3#2).wf = false ∧ (Instr.wrchr (2 ^ 32) 0#16 3#2).wf = false) ∧
    ((Instr.wrlin (2 ^ 32) 0#16 3#2).wf = false ∧ (Instr.wrpiv (2 ^ 32) 0#16 3#2).wf = false) ∧
    ((Instr.cwr0 (2 ^ 32) 0#16 3#2).wf = false ∧ (Instr.cwr1 (2 ^ 32) 0#16 3#2).wf = false) := by decide

theorem test_wf_refuses_wide_reads :
    ((Instr.rdspr (2 ^ 32)).wf = false ∧ (Instr.rdpf (2 ^ 32)).wf = false) ∧
    ((Instr.rdtxt (2 ^ 32)).wf = false ∧ (Instr.rdchr (2 ^ 32)).wf = false) ∧
    ((Instr.rdlin (2 ^ 32)).wf = false ∧ (Instr.rdpiv (2 ^ 32)).wf = false) ∧
    ((Instr.crd0 (2 ^ 32)).wf = false ∧ (Instr.crd1 (2 ^ 32)).wf = false) ∧
    (Instr.line (2 ^ 32)).wf = false := by decide

theorem test_wf_accepts_the_widest : (Instr.wrpf (2 ^ 32 - 1) 0xFFFF#16 3#2).wf = true := by decide

/-! ### Words written out from R110..R114: OP, SEL, RSV and LN, ADDR, DATA -/

theorem test_decode_nop : decode 0x0000000000000000#64 = .ok .nop := by decide
theorem test_decode_wrspr : decode 0x100300007FFF8001#64 = .ok (.wrspr 0x7FFF 0x8001#16 3#2) := by decide
theorem test_decode_wrpf : decode 0x1102000000010010#64 = .ok (.wrpf 0x0001 0x0010#16 2#2) := by decide
theorem test_decode_wrtxt : decode 0x120100000FFF0207#64 = .ok (.wrtxt 0x0FFF 0x0207#16 1#2) := by decide
theorem test_decode_wrchr : decode 0x1303000000101234#64 = .ok (.wrchr 0x0010 0x1234#16 3#2) := by decide
theorem test_decode_wrlin : decode 0x140300000100ABCD#64 = .ok (.wrlin 0x0100 0xABCD#16 3#2) := by decide
theorem test_decode_wrpiv : decode 0x150080000001F000#64 = .ok (.wrpiv 0x80000001 0xF000#16 0#2) := by decide
theorem test_decode_rdspr : decode 0x2000000000090000#64 = .ok (.rdspr 9) := by decide
theorem test_decode_rdpf : decode 0x210000005FFF0000#64 = .ok (.rdpf 0x5FFF) := by decide
theorem test_decode_rdtxt : decode 0x2200000001230000#64 = .ok (.rdtxt 0x0123) := by decide
theorem test_decode_rdchr : decode 0x2300000000100000#64 = .ok (.rdchr 0x0010) := by decide
theorem test_decode_rdlin : decode 0x2400000001000000#64 = .ok (.rdlin 0x0100) := by decide
theorem test_decode_rdpiv : decode 0x250000007FFF0000#64 = .ok (.rdpiv 0x7FFF) := by decide
theorem test_decode_cwr0 : decode 0x300300000003FFFF#64 = .ok (.cwr0 3 0xFFFF#16 3#2) := by decide
theorem test_decode_cwr1 : decode 0x3101000000050100#64 = .ok (.cwr1 5 0x0100#16 1#2) := by decide
theorem test_decode_crd0 : decode 0x4000000000030000#64 = .ok (.crd0 3) := by decide
theorem test_decode_crd1 : decode 0x4100000000070000#64 = .ok (.crd1 7) := by decide
theorem test_decode_frame : decode 0x5000000000000000#64 = .ok .frame := by decide
theorem test_decode_line : decode 0x6000000000FF0000#64 = .ok (.line 255) := by decide
theorem test_decode_reset : decode 0x7000000000000000#64 = .ok .reset := by decide

/-- The reserved words of V1. -/
theorem test_decode_rejects_reserved_words :
    [0x1107000000010010#64, 0x1603000000000000#64, 0x2100000000010001#64, 0x2103000000010000#64,
      0x3203000000000000#64, 0x5000000000000001#64, 0x6100000000050000#64, 0x8000000000000000#64,
      0xF000000000000000#64, 0x1107000160000000#64].all
        (fun w => decide (decode w = .error .illegalEncoding)) = true := by decide

/-- The table word of the host's interface is the command word (R110). -/
theorem test_decodeTableWord : decodeTableWord 64 0x1103000060000001 = some (.wrpf 0x6000 0x0001#16 3#2) := by
  decide

/-! ### Storage commands (V2, V3, V11) -/

theorem test_nop : after .nop (state [(.pf, 1, 0x0010#16)]) = some (state [(.pf, 1, 0x0010#16)]) := by decide

theorem test_wrspr_last : (after (.wrspr 0x7FFF 0x0001#16 3#2) (state [])).map (memRead · .spr 0x7FFF) =
    some 0x0001#16 := by decide

theorem test_wrpf_high_lane : (after (.wrpf 1 0x0010#16 2#2) (state [(.pf, 1, 0xABCD#16)])).map (memRead · .pf 1) =
    some 0x00CD#16 := by decide

theorem test_wrpf_refused : (after (.wrpf 0x6000 1#16 3#2) (state [(.pf, 0x5FFF, 0x0042#16)])).map
    (fun t => (memRead t .pf 0x5FFF, t.mark)) = some (0x0042#16, some .offsetOutOfRange) := by decide

theorem test_wrtxt_refused : (after (.wrtxt 0x1000 0#16 3#2) (state [])).map (·.mark) =
    some (some .offsetOutOfRange) := by decide

theorem test_wrchr : (after (.wrchr 0x10 0x1234#16 3#2) (state [])).map (memRead · .chr 0x10) =
    some 0x1234#16 := by decide

theorem test_wrlin_high_lane : (after (.wrlin 0x100 0x1200#16 2#2) (state [(.lin, 0x100, 0xABCD#16)])).map
    (memRead · .lin 0x100) = some 0x12CD#16 := by decide

theorem test_wrlin_low_lane : (after (.wrlin 0x100 0x0012#16 1#2) (state [(.lin, 0x100, 0xABCD#16)])).map
    (memRead · .lin 0x100) = some 0xAB12#16 := by decide

theorem test_wrpiv_last : (after (.wrpiv 0x7FFF 0x00F0#16 3#2) (state [])).map
    (fun t => (memRead t .piv 0x7FFF, t.mark)) = some (0x00F0#16, none) := by decide

theorem test_rdspr : (after (.rdspr 0x7FFF) (state [(.spr, 0x7FFF, 0x0001#16)])).map (·.out) =
    some [.half 0x0001#16] := by decide

theorem test_rdpf : (after (.rdpf 0x5FFF) (state [(.pf, 0x5FFF, 0x0042#16)])).map (·.out) =
    some [.half 0x0042#16] := by decide

theorem test_rdtxt_refused : (after (.rdtxt 0x1000) (state [])).map (fun t => (t.out, t.mark)) =
    some ([], some .offsetOutOfRange) := by decide

theorem test_rdchr : (after (.rdchr 0x10) (state [(.chr, 0x10, 0x1234#16)])).map (·.out) =
    some [.half 0x1234#16] := by decide

theorem test_rdlin : (after (.rdlin 0x100) (state [(.lin, 0x100, 0x12CD#16)])).map (·.out) =
    some [.half 0x12CD#16] := by decide

theorem test_rdpiv : (after (.rdpiv 0x20) (state [(.piv, 0x20, 0xF000#16)])).map (·.out) =
    some [.half 0xF000#16] := by decide

theorem test_cwr0 : (after (.cwr0 7 0x1234#16 3#2) (state [])).map (fun t => (bankRead t.ctrl0 7, bankRead t.ctrl1 7)) =
    some (0x1234#16, 0#16) := by decide

theorem test_cwr0_refused : (after (.cwr0 8 0#16 3#2) (state [])).map (·.mark) = some (some .indexOutOfRange) := by decide

theorem test_cwr1_low_lane : (after (.cwr1 5 0x0100#16 1#2)
    { state [] with ctrl1 := (Vector.replicate 8 0#16).set 5 0xABCD#16 }).map (fun t => bankRead t.ctrl1 5) =
      some 0xAB00#16 := by decide

theorem test_crd0 : (after (.crd0 7) { state [] with ctrl0 := (Vector.replicate 8 0#16).set 7 0x1234#16 }).map (·.out) =
    some [.half 0x1234#16] := by decide

theorem test_crd1_refused : (after (.crd1 8) (state [])).map (fun t => (t.out, t.mark)) =
    some ([], some .indexOutOfRange) := by decide

theorem test_reset_zeroes_banks : (after .reset
    { state [(.lin, 7, 0x0123#16)] with ctrl0 := Vector.replicate 8 0xFFFF#16 }).map
      (fun t => (bankRead t.ctrl0 3, memRead t .lin 7)) = some (0#16, 0x0123#16) := by decide

/-- V11: the illegal word is reported before the bad offset. -/
theorem test_step_reports_illegal_first : runs (issued [0x1107000160000000#64]) = some ([], some .illegalEncoding) := by
  decide

/-! ### FRAME (V6) -/

/-- Entry 0 of code 1, color 0x01 at (10, 0), entry 1 of color 0x02 at (12, 0), both 4 columns by 1 row, and the
sentinel. -/
def twoSprites : State :=
  { state [(.spr, 0, 1#16), (.spr, 2, 0x01#16), (.spr, 3, 10#16), (.spr, 6, 0x0820#16),
      (.spr, 8, 1#16), (.spr, 10, 0x02#16), (.spr, 11, 12#16), (.spr, 14, 0x0820#16), (.spr, 17, 0x8000#16)] with
    par := { fixture with screenW := 16 } }

/-- As V6.12: where two sprites overlap the later one wins. -/
theorem test_frame_later_wins : (after .frame twoSprites).map
    (fun t => ([9, 10, 11, 12, 15].map (sprAt t.sprbuf 0 0), sprAt t.sprbuf 0 1 10, usageAt t.usage 0 0)) =
      some ([0#16, 0x018#16, 0x018#16, 0x028#16, 0x028#16], 0#16, 1#8) := by decide +kernel

/-- As V6.13: with EARLIER_WINS the first one wins. -/
theorem test_frame_earlier_wins : (after .frame
    { twoSprites with par := { fixture with screenW := 16, sprOverdraw := .earlierWins } }).map
      (fun t => [10, 12, 13, 14, 15].map (sprAt t.sprbuf 0 0)) =
        some [0x018#16, 0x018#16, 0x018#16, 0x028#16, 0x028#16] := by decide +kernel

/-- A sprite wholly under an earlier one, of sub-band 1. -/
def hiddenSprite (rule : UsageRule) : State :=
  { state [(.spr, 0, 1#16), (.spr, 2, 0x01#16), (.spr, 3, 10#16), (.spr, 6, 0x0820#16),
      (.spr, 8, 1#16), (.spr, 9, 0x0020#16), (.spr, 10, 0x02#16), (.spr, 11, 10#16), (.spr, 14, 0x0820#16),
      (.spr, 17, 0x8000#16)] with
    par := { fixture with screenW := 16, sprOverdraw := .earlierWins, usageRule := rule } }

/-- R41: a sprite that wrote no pixel of the row sets no bit; the pseudocode of R217 sets it (log entry 11). -/
theorem test_usage_of_a_hidden_sprite :
    (after .frame (hiddenSprite .written)).map (fun t => usageAt t.usage 0 0) = some 1#8 ∧
    (after .frame (hiddenSprite .covered)).map (fun t => usageAt t.usage 0 0) = some 3#8 := by decide +kernel

/-! ### LINE (E2, V9) -/

/-- The layers of V9 at two columns of line 0: PF0 and PF1 solid, and a sprite pixel at column 0. -/
def layers (pf0 pf1 sp0 : Half) : State :=
  { state [(.pf, 0, 0x0001#16), (.pf, 1, 0x0020#16), (.pf, 0x800, 0x0202#16), (.pf, 0x801, 0x0020#16),
      (.lin, 0x0D, pf0), (.lin, 0x0E, pf1), (.lin, 0x09, sp0)] with sprbuf := [(sprKey 0 0 0, 0x0F8#16)] }

/-- The last value a command returned. -/
def returned (t : State) : Option Result := t.out.getLast?

/-- E2, second row: SP0 of priority 5 is above PF0 of priority 2. -/
theorem test_line_priority : (after (.line 0) (layers 0x2002#16 0#16 0x2005#16)).bind returned =
    some (.line [⟨0#8, 255#8, 136#8⟩, ⟨0#8, 17#8, 119#8⟩] [0x05#8, 0x02#8]) := by decide +kernel

/-- V9, third row: SP0 blends with PF1 alone, and PF1 blends with PF0. -/
theorem test_line_blend : (after (.line 0) (layers 0xA001#16 0xE002#16 0x6003#16)).bind returned =
    some (.line [⟨0#8, 144#8, 127#8⟩, ⟨0#8, 25#8, 119#8⟩] [0x13#8, 0x32#8]) := by decide +kernel

/-! ### Fields and addresses (E1, V4, V5, V7) -/

theorem test_penMask : [0x0C00#16, 0x0C01#16, 0x0C02#16, 0x0C03#16, 0x0000#16, 0x01FF#16, 0x0401#16, 0x0802#16].map penMask =
    [0x3F#6, 0x2F#6, 0x1F#6, 0x0F#6, 0x0F#6, 0x0F#6, 0x0F#6, 0x0F#6] := by decide

theorem test_charPen : let s := state [(.chr, 0x10, 0x1234#16), (.chr, 0x1F, 0x000F#16)]
    [charPen s 1 0 0, charPen s 1 3 0, charPen s 1 7 7] = [1#4, 4#4, 0xF#4] := by decide

theorem test_cellAddr : cellAddr fixture 1 3 2 = 0x886 ∧ cellAddr { fixture with extended := true } 3 63 31 = 0x3FFE := by
  decide

theorem test_pfPixel_palette_or : pfPixel (state [(.pf, 0, 0x0C01#16), (.pf, 1, 0x0020#16)]) 0 0 0 =
    { isOpaque := true, index := 0x037#16, blendSel := false } := by decide

theorem test_textPixel_flips : (textPixel (state [(.txt, 0x41, 0x8B07#16), (.chr, 0x7F, 0x0005#16)]) 8 8).index =
    0x055#16 := by decide

theorem test_pixPixel_page : (pixPixel { state [(.piv, 0x10, 0xB000#16), (.txt, 33 * 64, 0x7E00#16)] with
    ctrl1 := (Vector.replicate 8 0#16).set 5 0xF8#16 } 0 16).index = 0x3FB#16 := by decide

/-- V7: a left bound of -6 by the high bit. -/
theorem test_clip_negative_bound : let s := state [(.lin, 0, 0x05FA#16), (.lin, 4, 0x0001#16), (.lin, 0x0D, 0x2100#16)]
    [0, 5, 6].map (clipPass fixture (latch s 0) (.pf 0)) = [true, true, false] := by decide

theorem test_assembler : assembleLine fixture "WRPF 0x0001, 0x0010 ; tile".toList = some [.wrpf 1 0x0010#16 3#2] := by
  decide

/-! ### Witnesses: states and operands that meet the hypotheses of the statements -/

/-- OpcodeTableDecodesEveryWord: a word that spells a row, a word that spells none, and a command outside its range. -/
theorem witness_OpcodeTableDecodesEveryWord :
    (∃ r ∈ opcodeTable, (0x1103000000010010#64 : Word) &&& r.mask = r.pattern) ∧
    (∀ r ∈ opcodeTable, (0x8000000000000000#64 : Word) &&& r.mask ≠ r.pattern) ∧
    (Instr.wrpf 0x6000 0#16 3#2).inRange fixture.visH = false := by decide

theorem witness_DecodeOfEncodeIsTheInstruction : (Instr.wrpf 0xFFFFFFFF 0xFFFF#16 3#2).wf = true := by decide

theorem witness_DecodedWordIsTheEncoding : decode 0x210000005FFF0000#64 = .ok (.rdpf 0x5FFF) := by decide

/-- IllegalWordIsRefused: a waiting illegal word, and for each reserved field a word at its boundary. -/
theorem witness_IllegalWordIsRefused :
    ((issued [0x8000000000000000#64]).stream = [0x8000000000000000#64]) ∧
    (opField 0x8000000000000000#64).toNat = 8 ∧
    (opField 0x1600000000000000#64 = 1#4 ∧ (selField 0x1600000000000000#64).toNat = 6) ∧
    (opField 0x4200000000000000#64 = 4#4 ∧ (selField 0x4200000000000000#64).toNat = 2) ∧
    (opField 0x5100000000000000#64 = 5#4 ∧ selField 0x5100000000000000#64 ≠ 0#4) ∧
    rsvField 0x1107000000010010#64 ≠ 0#6 ∧
    (opField 0x2100000000010001#64 = 2#4 ∧ dataField 0x2100000000010001#64 ≠ 0#16) ∧
    (opField 0x2103000000010000#64 = 2#4 ∧ lnField 0x2103000000010000#64 ≠ 0#2) ∧
    (opField 0x0000000000010000#64 = 0#4 ∧ addrField 0x0000000000010000#64 ≠ 0#32) := by decide +kernel

theorem witness_StepRunsTheDecodedCommand :
    (issued [0x6000000000050000#64, 0#64]).stream = 0x6000000000050000#64 :: [0#64] ∧
      decode 0x6000000000050000#64 = .ok (.line 5) := by decide

/-- The run of a few words of P4: a read, a refused write and a bank read. -/
theorem test_run_returns : runs (issued [0x2300000000100000#64, 0x1103000060000001#64, 0x4000000000030000#64]) =
    some ([.half 0#16, .half 0#16], some .offsetOutOfRange) := by decide

theorem witness_RunReturnsOneValuePerReadAndLine : ∃ t,
    (issued [0x2300000000100000#64, 0x1103000060000001#64, 0x4000000000030000#64]).run = .next t ∧ t.out.length = 2 := by
  obtain ⟨t, ht, ho, -⟩ := run_of_runs test_run_returns
  exact ⟨t, ht, by rw [ho]; rfl⟩

/-- OffsetOutsideItsSpaceIsRefused: for each of the eight spaces, the boundary is refused and the last offset is not. -/
theorem witness_OffsetOutsideItsSpaceIsRefused :
    [Instr.wrspr 0x8000 0#16 3#2, .rdspr 0x8000, .wrpf 0x6000 0#16 3#2, .rdpf 0x6000, .wrtxt 0x1000 0#16 3#2,
      .rdtxt 0x1000, .wrchr 0x1000 0#16 3#2, .rdchr 0x1000, .wrlin 0x8000 0#16 3#2, .rdlin 0x8000, .wrpiv 0x8000 0#16 3#2,
      .rdpiv 0x8000, .cwr0 8 0#16 3#2, .crd0 8, .cwr1 8 0#16 3#2, .crd1 8].all
        (fun i => (after i (state [])).map (·.mark.isSome) == some true) = true ∧
    [Instr.wrspr 0x7FFF 0#16 3#2, .rdspr 0x7FFF, .wrpf 0x5FFF 0#16 3#2, .rdpf 0x5FFF, .wrtxt 0xFFF 0#16 3#2,
      .rdtxt 0xFFF, .wrchr 0xFFF 0#16 3#2, .rdchr 0xFFF, .wrlin 0x7FFF 0#16 3#2, .rdlin 0x7FFF, .wrpiv 0x7FFF 0#16 3#2,
      .rdpiv 0x7FFF, .cwr0 7 0#16 3#2, .crd0 7, .cwr1 7 0#16 3#2, .crd1 7].all
        (fun i => (after i (state [])).map (·.mark.isSome) == some false) = true := by decide +kernel

theorem witness_MarkRecordsTheFirstReason :
    (Instr.line 256).inRange (issued []).par.visH = false ∧
    (issued [0xF000000000000000#64]).stream = [0xF000000000000000#64] ∧
    decode 0xF000000000000000#64 = .error .illegalEncoding := by decide

theorem witness_SetMarkIsKept : ∃ t,
    ({ issued [0x7000000000000000#64] with mark := some .lineOutOfRange } : State).run = .next t ∧
      ({ issued [0x7000000000000000#64] with mark := some .lineOutOfRange } : State).mark = some .lineOutOfRange := by
  obtain ⟨t, ht, -⟩ := run_of_runs (s := { issued [0x7000000000000000#64] with mark := some .lineOutOfRange })
    (r := ([], some .lineOutOfRange)) (by decide)
  exact ⟨t, ht, rfl⟩

theorem witness_AcceptedRunLeavesTheMarkClear : ∃ t,
    (∀ w ∈ [0x1303000000101234#64, 0x2300000000100000#64], wordAccepted fixture.visH w = true) ∧
      (issued [0x1303000000101234#64, 0x2300000000100000#64]).run = .next t := by
  obtain ⟨t, ht, -⟩ := run_of_runs (s := issued [0x1303000000101234#64, 0x2300000000100000#64])
    (r := ([.half 0x1234#16], none)) (by decide)
  exact ⟨t, by simp; decide, ht⟩

theorem witness_NopAndIdleHoldTheState : (state [(.pf, 1, 0x0010#16)]).stream = [] := by decide

/-- RegionWriteStoresTheEnabledLanes, RegionWriteMarksItsElementsDirty: the last offset of each region, and the two
sides of 0x4000 in PF. -/
theorem witness_RegionWrites :
    0x7FFF < Region.spr.size ∧ 0x5FFF < Region.pf.size ∧ 0xFFF < Region.txt.size ∧ 0xFFF < Region.chr.size ∧
    0x7FFF < Region.lin.size ∧ 0x7FFF < Region.piv.size ∧ 0x3FFF < Region.pf.size ∧ 0x4000 < Region.pf.size := by decide

/-- A clean playfield entry: a write below 0x4000 to its word makes it dirty, a write at 0x4000 does not. -/
theorem witness_RegionWriteMarksItsElementsDirty :
    let s := { state [] with cache := { Caches.allDirty with pf := [(0x1FFF, decodePfCell 0#16 0#16)] } }
    (after (.wrpf 0x3FFF 1#16 3#2) s).map (fun t => (Sparse.find? t.cache.pf 0x1FFF).isSome) = some false ∧
    (after (.wrpf 0x4000 1#16 3#2) s).map (fun t => (Sparse.find? t.cache.pf 0x1FFF).isSome) = some true := by decide

theorem witness_RegionReadReturnsTheHalfword :
    (after (.rdpiv 0x7FFF) (state [(.piv, 0x7FFF, 5#16)])).map (fun t => (t.out, t.mark)) = some ([.half 5#16], none) ∧
    (after (.rdpiv 0x8000) (state [(.piv, 0x7FFF, 5#16)])).map (fun t => (t.out, t.mark)) =
      some ([], some .offsetOutOfRange) := by decide

theorem witness_ReadAfterWriteReturnsTheData : 0x5FFF < Region.pf.size ∧ 0xFFF < Region.chr.size := by decide

/-- A state with RAM, a bank, a clean cache entry and a waiting word, for the statements about the invariant. -/
def busy : State := { state [(.chr, 0x10, 0x1234#16)] with
  ctrl1 := Vector.replicate 8 1#16
  sprbuf := [(sprKey 0 0 1, 0x0F8#16)]
  usage := [(useKey 0 0, 1#8)]
  cache := { Caches.allDirty with chr := [(1, elementPens fixture (state [(.chr, 0x10, 0x1234#16)]).chr 1)] }
  stream := [0x1303000000105678#64] }

theorem fixture_ok : fixture.Ok :=
  ⟨by decide, by decide, by decide, by decide, by decide, by decide, by decide, by decide, by decide, by decide,
    by decide, by decide, by decide⟩

theorem busy_inv : busy.Inv where
  par := fixture_ok
  spr := by decide
  pf := by decide
  txt := by decide
  chr := by decide
  lin := by decide
  piv := by decide
  sprbuf := by decide
  sprbufColumns := by decide
  usage := by decide
  shownLength := Nat.zero_le _
  shownScales := by decide
  cacheSorted := by decide
  cacheCoherent := {
    chr := fun e he => by
      have h : e = (1, elementPens fixture (state [(.chr, 0x10, 0x1234#16)]).chr 1) := List.mem_singleton.1 he
      subst h
      exact ⟨by decide, rfl⟩
    piv := fun _ he => absurd he List.not_mem_nil
    pf := fun _ he => absurd he List.not_mem_nil
    txt := fun _ he => absurd he List.not_mem_nil
    pix := fun _ he => absurd he List.not_mem_nil }

/-- With every entry dirty no entry is stale. -/
theorem coherent_of_allDirty {s : State} (h : s.cache = Caches.allDirty) : s.CacheCoherent := by
  constructor <;> rw [h] <;> exact fun _ he => absurd he List.not_mem_nil

/-- ReadsAndRepeatedWritesHaveNoFurtherEffect, StepKeepsTheInvariant. -/
theorem witness_StepKeepsTheInvariant : busy.Inv ∧ (∃ t, step busy = .next t) ∧
    (∃ t, exec (.wrchr 0x10 0x5678#16 1#2) busy = .next t) ∧ (∃ t, exec (.rdchr 0x10) busy = .next t) := by
  refine ⟨busy_inv, ?_, ?_, ?_⟩
  · obtain ⟨t, ht, -⟩ := step_total (s := busy) rfl
    exact ⟨t, ht⟩
  · obtain ⟨t, ht, -⟩ := exec_effect (.wrchr 0x10 0x5678#16 1#2) busy
    exact ⟨t, ht⟩
  · obtain ⟨t, ht, -⟩ := exec_effect (.rdchr 0x10) busy
    exact ⟨t, ht⟩

theorem witness_BankReadReturnsTheHalfword : (after (.crd1 7) busy).map (·.out) = some [.half 1#16] ∧
    (after (.crd1 8) busy).map (·.out) = some [] := by decide

theorem witness_NoCommandChangesTheParameters : ∃ t, step busy = .next t := witness_StepKeepsTheInvariant.2.1

/-- OnlyTheNamedCommandsChangeState: a PF write meets the premises of every clause but its own. -/
theorem witness_OnlyTheNamedCommandsChangeState :
    (∃ t, exec (.wrpf 1 2#16 3#2) busy = .next t) ∧
    (∀ r : Region, r ≠ .pf → ∀ a v ln, Instr.wrpf 1 2#16 3#2 ≠ writeInstr r a v ln) ∧
    Instr.wrpf 1 2#16 3#2 ≠ .reset ∧ Instr.wrpf 1 2#16 3#2 ≠ .frame ∧
    (∀ k v ln, Instr.wrpf 1 2#16 3#2 ≠ .cwr0 k v ln ∧ Instr.wrpf 1 2#16 3#2 ≠ .cwr1 k v ln) := by
  refine ⟨?_, ?_, nofun, nofun, fun _ _ _ => ⟨nofun, nofun⟩⟩
  · obtain ⟨t, ht, -⟩ := exec_effect (.wrpf 1 2#16 3#2) busy
    exact ⟨t, ht⟩
  · intro r hr a v ln h
    cases r with
    | pf => exact hr rfl
    | spr => cases h
    | txt => cases h
    | chr => cases h
    | lin => cases h
    | piv => cases h

/-- PowerOnMeetsTheInvariant: parameters and draws that are not the default ones. -/
theorem witness_PowerOnMeetsTheInvariant : fixture.Ok ∧
    Draws.Ok fixture { Draws.zero with chr := [(0x1FFF, 7#8)], sprbuf := [(sprKey 3 255 1, 1#16)] } :=
  ⟨fixture_ok, ⟨by decide, by decide, by decide, by decide, by decide, by decide, by decide, by decide, by decide⟩⟩

theorem witness_ElementPenIsItsNibble : 7 < 8 ∧ (state []).par.charPacking = [] := by decide

/-- PlayfieldCellsFillTheGridArea: the last cell of either mode. -/
theorem witness_PlayfieldCellsFillTheGridArea :
    (7 < tilemaps fixture ∧ 31 < mapCols fixture ∧ 31 < mapRows ∧ cellAddr fixture 7 31 31 = 0x3FFE) ∧
    (let e := { fixture with extended := true }
     3 < tilemaps e ∧ 63 < mapCols e ∧ 31 < mapRows ∧ cellAddr e 3 63 31 = 0x3FFE) := by decide

/-- MapCoordinateScrollsZoomsAndWraps: a zoom word of 0. -/
theorem witness_MapCoordinateScrollsZoomsAndWraps : (latch (state []) 0).zoom 0 = 0#16 := by decide

/-- The sprite of V6.1: code 1, color 0x0F at (10, 0), scale 1x. -/
def sprite : Descriptor := ⟨1#17, 0x0F#8, false, false, 0#4, 10 * 256, 0, 0x80, 0x80⟩

/-- CoveredPixelTakesATexelOfTheTile: the first and the last covered column and row, and the ones beyond. -/
theorem witness_CoveredPixelTakesATexelOfTheTile :
    sprite.sx ≠ 0 ∧ sprite.sy ≠ 0 ∧ sprite.covers 0 10 = true ∧ sprite.covers 15 25 = true ∧
    sprite.covers 0 9 = false ∧ sprite.covers 0 26 = false ∧ sprite.covers 16 10 = false ∧
    sprite.x = ((10 : Nat) : Int) * 256 ∧ sprite.sx = 0x80 ∧ sprite.y = ((0 : Nat) : Int) * 256 ∧ sprite.sy = 0x80 := by
  decide

theorem witness_SpriteIndexIsNonzero : sprIndex 0x00#8 1#6 = 0x001#16 ∧ (1#6 : BitVec 6) ≠ 0#6 := by decide

theorem witness_FrameRebuildsFromSpriteRamAlone : busy.spr = (state []).spr ∧ busy.par = (state []).par := ⟨rfl, rfl⟩

/-- FramePixelIsTheWinningSprite, and the clause on usage masks under EARLIER_WINS: the first sprite writes pixel
(0, 10), which both paint. -/
theorem witness_FramePixelIsTheWinningSprite :
    (twoSprites.par.screenW ≤ 512 ∧ 255 < 256 ∧ 15 < twoSprites.par.screenW ∧
      (descriptorOf twoSprites.spr 1).paints twoSprites.par 0 0 15 = true) ∧
    (let s := hiddenSprite .written
     0 < 8 ∧ 10 < s.par.screenW ∧ (descriptorOf s.spr 0).paints s.par 0 0 10 = true ∧
       (descriptorOf s.spr 1).paints s.par 0 0 10 = true) := by decide +kernel

/-- The two runs of SpriteRamIsNotShownBeforeAFrame, OutputsIgnoreTheHiddenState and
LinesAfterAFrameIgnoreTheBufferDraws. Each run of the model ends, so the second of each pair exists as the first does. -/
theorem run_exists (s : State) : ∃ t, s.run = .next t := by
  have key : ∀ (ws : List Word) (s : State), s.stream = ws → ∃ t, s.run = .next t := by
    intro ws
    induction ws with
    | nil => intro s hs; exact ⟨s, run_nil hs⟩
    | cons w rest ih =>
      intro s hs
      obtain ⟨u, hu, hst, -⟩ := step_total hs
      rw [run_cons hs hu]
      exact ih u hst
  exact key _ s rfl

theorem witness_SpriteRamIsNotShownBeforeAFrame :
    (∀ w ∈ (issued [0x1003000000018000#64, 0x6000000000000000#64]).stream,
      isFrameWord w = false ∧ isRdsprWord w = false) ∧
    (∃ t, (issued [0x1003000000018000#64, 0x6000000000000000#64]).run = .next t) ∧
    ∃ t, ({ issued [0x1003000000018000#64, 0x6000000000000000#64] with spr := [(3, 1#8)] } : State).run = .next t := by
  refine ⟨?_, run_exists _, run_exists _⟩
  simp only [issued, List.mem_cons, List.not_mem_nil, or_false, forall_eq_or_imp, forall_eq]
  decide

theorem witness_OutputsIgnoreTheHiddenState :
    (∃ t, (issued [0x6000000000000000#64]).run = .next t) ∧
    ∃ t, ({ issued [0x6000000000000000#64] with usage := [(0, 1#8)], shown := [], cache := busy.cache } : State).run =
      .next t :=
  ⟨run_exists _, run_exists _⟩

theorem witness_LinesAfterAFrameIgnoreTheBufferDraws :
    frameBeforeLines [0#64, 0x5000000000000000#64] = true ∧
    (∃ t, ({ State.powerOn fixture Draws.zero with stream := [0x5000000000000000#64] } : State).run = .next t) ∧
    ∃ t, ({ State.powerOn fixture { Draws.zero with sprbuf := [(0, 1#16)], usage := [(0, 1#8)] } with
      stream := [0x5000000000000000#64] } : State).run = .next t :=
  ⟨by decide, run_exists _, run_exists _⟩

/-- LineReturnsItsRowsAndChangesOnlyTheCaches, LineLeavesEveryLinesResult: V11, `LINE 255` and `LINE 256`. -/
theorem witness_LineReturnsItsRowsAndChangesOnlyTheCaches :
    255 < (state []).par.visH ∧ (state []).par.visH ≤ 256 ∧ ∃ t, exec (.line 255) (state []) = .next t := by
  obtain ⟨t, ht, -⟩ := exec_effect (.line 255) (state [])
  exact ⟨by decide, by decide, t, ht⟩

/-- MosaicReplicatesTheFirstColumn: two columns of one run of 4, and `N = 1`. -/
theorem witness_MosaicReplicatesTheFirstColumn :
    (let s := state [(.lin, 6, 3#16)]
     let n := (memRead s .lin 6).toNat % 16 + 1
     n = 4 ∧ 4 / n = 7 / n) ∧
    (memRead (state [(.lin, 6, 0xFFF0#16)]) .lin 6).toNat % 16 + 1 = 1 := by decide

theorem witness_UnsuppliedColumnShowsTheBackground :
    ∀ l, supplies (state []) (latch (state []) 0) 0 0 l = false := by
  have h : ∀ l ∈ Layer.all, supplies (state []) (latch (state []) 0) 0 0 l = false := by decide
  exact fun l => h l (Layer.mem_all l)

/-- LineDecodesTheElementsItSamples: a state without stale entries on which a playfield and the pivot slot reach column
1 of line 0, with the text layer and with the pixel layer. -/
theorem witness_LineDecodesTheElementsItSamples :
    (let s := state [(.lin, 0x0D, 0x2000#16), (.lin, 0x08, 0x2000#16)]
     s.CacheCoherent ∧ 0 < s.par.visH ∧ 1 < s.par.screenW ∧ reaches s (latch s 0) (.pf 0) 1 = true ∧
       reaches s (latch s 0) .piv 1 = true ∧ pixSel (latch s 0) = false ∧ ∃ t, exec (.line 0) s = .next t) ∧
    (let s := state [(.lin, 0x05, 0x0008#16), (.lin, 0x08, 0x2000#16)]
     s.CacheCoherent ∧ reaches s (latch s 0) .piv 1 = true ∧ pixSel (latch s 0) = true ∧
       ∃ t, exec (.line 0) s = .next t) := by
  have next : ∀ s : State, ∃ t, exec (.line 0) s = .next t := fun s => by
    obtain ⟨t, ht, -⟩ := exec_effect (.line 0) s
    exact ⟨t, ht⟩
  exact ⟨⟨coherent_of_allDirty rfl, by decide, by decide, by decide, by decide, by decide, next _⟩,
    ⟨coherent_of_allDirty rfl, by decide, by decide, next _⟩⟩

theorem witness_LayerOrderAscendsByPriorityAndTieOrder : fixture.Ok ∧
    ∀ a b : Layer, ((latch (state []) 0).mix a).toNat % 16 = ((latch (state []) 0).mix b).toNat % 16 := by
  have h : ∀ l ∈ Layer.all, ((latch (state []) 0).mix l).toNat % 16 = 0 := by decide
  exact ⟨fixture_ok, fun a b => by rw [h a (Layer.mem_all a), h b (Layer.mem_all b)]⟩

/-- ColumnShowsTheHighestSupplyingLayer: at column 0 of V9's third row SP0 is the top and PF1 is under it, blended; with
no layer enabled none supplies. -/
theorem witness_ColumnShowsTheHighestSupplyingLayer :
    let s := layers 0xA001#16 0xE002#16 0x6003#16
    let n := latch s 0
    s.par.Ok ∧ IsTopLayer s n 0 0 (.sp 0) ∧ IsUnderLayer s n 0 0 (.sp 0) (.pf 1) ∧
      (columnAcc s n 0 0).blended = true ∧ ∀ l, supplies (state []) (latch (state []) 0) 0 0 l = false := by
  refine ⟨fixture_ok, ⟨by decide, ?_⟩, ⟨by decide, by decide, ?_⟩, by decide,
    witness_UnsuppliedColumnShowsTheBackground⟩
  · have h : ∀ l ∈ Layer.all, supplies (layers 0xA001#16 0xE002#16 0x6003#16) (latch (layers 0xA001#16 0xE002#16 0x6003#16) 0)
        0 0 l = true → notAbove fixture (latch (layers 0xA001#16 0xE002#16 0x6003#16) 0) l (.sp 0) = true := by decide
    exact fun l => h l (Layer.mem_all l)
  · have h : ∀ l ∈ Layer.all, supplies (layers 0xA001#16 0xE002#16 0x6003#16) (latch (layers 0xA001#16 0xE002#16 0x6003#16) 0)
        0 0 l = true → l ≠ .sp 0 →
          notAbove fixture (latch (layers 0xA001#16 0xE002#16 0x6003#16) 0) l (.pf 1) = true := by decide
    exact fun l => h l (Layer.mem_all l)

/-- LowerPriorityLayerIsNeverTheTop: E2, SP0 of priority 5 under PF0 of priority 9, at a column that starts a run. -/
theorem witness_LowerPriorityLayerIsNeverTheTop :
    let s := layers 0x2009#16 0#16 0x2005#16
    let n := latch s 0
    s.par.Ok ∧ supplies s n 0 0 (.sp 0) = true ∧ supplies s n 0 0 (.pf 0) = true ∧
      (layerPrio n (.sp 0)).toNat < (layerPrio n (.pf 0)).toNat ∧ 0 % mosaicFactor n = 0 :=
  ⟨fixture_ok, by decide, by decide, by decide, by decide⟩

theorem witness_BlendIsTheWeightedSumInEighths : fixture.blendKs = 4 ∧ fixture.blendKd = 4 ∧
    blend fixture ⟨0#8, 34#8, 119#8⟩ ⟨0#8, 17#8, 119#8⟩ = ⟨0#8, 25#8, 119#8⟩ := by decide

end Sys2Proof.Tests
end

section
/-! SUPPORT. The rules about every command of 10_state.md: no command changes a parameter (R46), who writes what
(R33, R34, R40, R42), nothing carries from one LINE to the next (R45), the invariant, and that no output reads the
hidden state (R41, R42, R43). -/

namespace Sys2Proof.Machine

/-! ### Parameters -/

/-- Settles O22: of the three cases of a step, only a command could change a parameter, and none does. -/
theorem noCommandChangesTheParameters : Obligations.NoCommandChangesTheParameters := by
  intro s t h
  obtain ⟨-, rfl⟩ | ⟨-, -, -, -, rfl⟩ | ⟨_, _, _, _, _, hx⟩ := step_cases h
  · rfl
  · rfl
  · exact (exec_par_stream hx).1

/-! ### Who writes what -/

/-- A region is changed only by its own write command (R33). -/
theorem exec_mem_of_ne_write {i : Instr} {s t : State} {r : Region} (h : exec i s = .next t)
    (hi : ∀ a v ln, i ≠ writeInstr r a v ln) : t.mem r = s.mem r := by
  cases effect_of_exec h with
  | write r' a v ln _ =>
    have hr : r ≠ r' := fun e => hi a v ln (e ▸ rfl)
    rw [State.mem_with_cache, memWrite_mem, if_neg hr]
  | refused _ _ => exact State.mem_with_mark s _ r
  | nop => rfl
  | read | crd0 | crd1 => exact emit_mem _ s r
  | cwr0 => exact State.mem_with_ctrl0 s _ r
  | cwr1 => exact State.mem_with_ctrl1 s _ r
  | frame => exact State.mem_with_buffers s _ _ _ r
  | line => rw [State.mem_with_cache, emit_mem]
  | reset => cases r <;> rfl

/-- Control bank 0 is changed only by CWR0 (R34) and RESET (R167). -/
theorem exec_ctrl0_of_ne_write {i : Instr} {s t : State} (h : exec i s = .next t) (hreset : i ≠ .reset)
    (hcwr : ∀ k v ln, i ≠ .cwr0 k v ln) : t.ctrl0 = s.ctrl0 := by
  cases effect_of_exec h with
  | write r a v ln _ => exact memWrite_ctrl0 s r a v ln
  | cwr0 k v ln => exact absurd rfl (hcwr k.val v ln)
  | reset => exact absurd rfl hreset
  | _ => rfl

/-- Control bank 1 is changed only by CWR1 (R34) and RESET (R167). -/
theorem exec_ctrl1_of_ne_write {i : Instr} {s t : State} (h : exec i s = .next t) (hreset : i ≠ .reset)
    (hcwr : ∀ k v ln, i ≠ .cwr1 k v ln) : t.ctrl1 = s.ctrl1 := by
  cases effect_of_exec h with
  | write r a v ln _ => exact memWrite_ctrl1 s r a v ln
  | cwr1 k v ln => exact absurd rfl (hcwr k.val v ln)
  | reset => exact absurd rfl hreset
  | _ => rfl

/-- The group buffers, the usage masks and the displayed list are changed only by FRAME (R40, R42). -/
theorem exec_buffers_of_ne_frame {i : Instr} {s t : State} (h : exec i s = .next t) (hframe : i ≠ .frame) :
    t.sprbuf = s.sprbuf ∧ t.usage = s.usage ∧ t.shown = s.shown := by
  cases effect_of_exec h with
  | write r a v ln _ => exact ⟨memWrite_sprbuf s r a v ln, memWrite_usage s r a v ln, memWrite_shown s r a v ln⟩
  | frame => exact absurd rfl hframe
  | _ => exact ⟨rfl, rfl, rfl⟩

/-- Settles O23, one lemma for each kind of state that a command may write. -/
theorem onlyTheNamedCommandsChangeState : Obligations.OnlyTheNamedCommandsChangeState := fun _ _ _ h =>
  ⟨fun _ => exec_mem_of_ne_write h, exec_ctrl0_of_ne_write h, exec_ctrl1_of_ne_write h, exec_buffers_of_ne_frame h⟩

/-! ### One LINE and the next -/

/-- Settles O44: a LINE changes the caches, the mark and the returned values alone, and no line's rows read these. -/
theorem lineLeavesEveryLinesResult : Obligations.LineLeavesEveryLinesResult := by
  intro s t y y' h
  rcases lt_or_ge y s.par.visH with hy | hy
  · rw [exec_line_of_lt s hy] at h
    cases h
    exact lineResult_congr rfl rfl rfl rfl rfl rfl rfl rfl rfl y'
  · rw [exec_line_of_le s hy, refuse_eq] at h
    cases h
    exact lineResult_congr rfl rfl rfl rfl rfl rfl rfl rfl rfl y'

/-! ### The invariant -/

/-- The invariant does not speak of the banks, the mark, the stream and the returned values. -/
theorem State.Inv.with_free_fields {s : State} (h : s.Inv) {b0 b1 : Vector Half 8} {m : Option Reason}
    {ws : List Word} {o : List Result} :
    ({ s with ctrl0 := b0, ctrl1 := b1, mark := m, stream := ws, out := o } : State).Inv :=
  ⟨h.par, h.spr, h.pf, h.txt, h.chr, h.lin, h.piv, h.sprbuf, h.sprbufColumns, h.usage, h.shownLength, h.shownScales,
    h.cacheSorted, ⟨h.cacheCoherent.chr, h.cacheCoherent.piv, h.cacheCoherent.pf, h.cacheCoherent.txt,
      h.cacheCoherent.pix⟩⟩

/-- Of the caches the invariant asks that they be sorted and hold no stale entry. -/
theorem State.Inv.with_cache {s : State} (h : s.Inv) {c : Caches} (hsorted : c.sorted = true)
    (hcoherent : c.Coherent s) : ({ s with cache := c } : State).Inv :=
  ⟨h.par, h.spr, h.pf, h.txt, h.chr, h.lin, h.piv, h.sprbuf, h.sprbufColumns, h.usage, h.shownLength, h.shownScales,
    hsorted, hcoherent⟩

theorem State.Inv.mem_wf {s : State} (h : s.Inv) (r : Region) : Memory.wf (s.mem r) r.size = true := by
  cases r with
  | spr => exact h.spr
  | pf => exact h.pf
  | txt => exact h.txt
  | chr => exact h.chr
  | lin => exact h.lin
  | piv => exact h.piv

/-- With every entry dirty no entry is stale. -/
theorem Caches.allDirty_coherent (s : State) : Caches.allDirty.Coherent s := by
  constructor <;> intro _ he <;> cases he

/-- A region write inside the region's size keeps the invariant (R33, R91, R151..R156). -/
theorem State.Inv.write {s : State} (h : s.Inv) {r : Region} {a : Nat} (v : Half) (ln : BitVec 2) (ha : a < r.size) :
    ({ memWrite s r a v ln with cache := markDirty s.cache r a } : State).Inv := by
  have hmem : ∀ r', Memory.wf ((memWrite s r a v ln).mem r') r'.size = true := by
    intro r'
    rw [memWrite_mem]
    split
    · next hr => subst hr; exact Memory.wf_writeHalf _ (h.mem_wf r') ha
    · exact h.mem_wf r'
  exact {
    par := by simpa using h.par
    spr := hmem .spr
    pf := hmem .pf
    txt := hmem .txt
    chr := hmem .chr
    lin := hmem .lin
    piv := hmem .piv
    sprbuf := by simpa using h.sprbuf
    sprbufColumns := by simpa using h.sprbufColumns
    usage := by simpa using h.usage
    shownLength := by simpa using h.shownLength
    shownScales := by simpa using h.shownScales
    cacheSorted := markDirty_sorted r a h.cacheSorted
    cacheCoherent := memWrite_coherent r a v ln h.cacheCoherent }

/-- Of the buffers and masks the invariant asks that they be canonical and inside the screen width, and of the
displayed list that it be a list of scaled descriptors no longer than the attribute table. -/
theorem State.Inv.with_buffers {s : State} (h : s.Inv) {cv : Canvas} (hcv : cv.Ok s.par) {l : List Descriptor}
    (hlength : l.length ≤ entryCount) (hscales : ∀ d ∈ l, d.sx ≠ 0 ∧ d.sy ≠ 0) :
    ({ s with sprbuf := cv.buf, usage := cv.use, shown := l } : State).Inv :=
  ⟨h.par, h.spr, h.pf, h.txt, h.chr, h.lin, h.piv, hcv.buf, hcv.columns, hcv.use, hlength, hscales, h.cacheSorted,
    ⟨h.cacheCoherent.chr, h.cacheCoherent.piv, h.cacheCoherent.pf, h.cacheCoherent.txt, h.cacheCoherent.pix⟩⟩

/-- Every command keeps the invariant. -/
theorem exec_keeps_inv {i : Instr} {s t : State} (h : s.Inv) (hx : exec i s = .next t) : t.Inv := by
  cases effect_of_exec hx with
  | write r a v ln ha => exact h.write v ln ha
  | frame =>
    exact h.with_buffers (drawList_ok (buildList s.spr) h.par.screenW_le) (buildList_length s.spr)
      fun _ => buildList_scales
  | line y _ =>
    exact (h.with_cache (lineCaches_sorted y h.cacheSorted) (lineCaches_coherent y h.cacheCoherent)).with_free_fields
  | reset => exact (h.with_cache rfl (Caches.allDirty_coherent s)).with_free_fields
  | nop => exact h
  | refused | read | cwr0 | cwr1 | crd0 | crd1 => exact h.with_free_fields

/-- Settles O26, by the three cases of a step and the outcomes of a command. -/
theorem stepKeepsTheInvariant : Obligations.StepKeepsTheInvariant := by
  intro s t hs h
  obtain ⟨-, rfl⟩ | ⟨-, -, -, -, rfl⟩ | ⟨_, _, _, _, _, hx⟩ := step_cases h
  · exact hs
  · exact hs.with_free_fields
  · exact exec_keeps_inv hs.with_free_fields hx

/-! ### The hidden state -/

/-- What no output reads: the usage masks (R41), the displayed list (R42) and the caches (R43). -/
structure Hidden where
  usage : List (Nat × Byte)
  shown : List Descriptor
  cache : Caches

/-- The state with other hidden state. -/
def State.withHidden (s : State) (d : Hidden) : State :=
  { s with usage := d.usage, shown := d.shown, cache := d.cache }

@[simp] theorem State.mem_withHidden (s : State) (d : Hidden) (r : Region) : (s.withHidden d).mem r = s.mem r := by
  cases r <;> rfl

@[simp] theorem memRead_withHidden (s : State) (d : Hidden) (r : Region) (a : Nat) :
    memRead (s.withHidden d) r a = memRead s r a := by
  rw [memRead, State.mem_withHidden, memRead]

/-- A region write changes the same bytes whatever the hidden state, and marks its own elements dirty in it. -/
theorem write_withHidden (s : State) (d : Hidden) (r : Region) (a : Nat) (v : Half) (ln : BitVec 2) :
    ({ memWrite (s.withHidden d) r a v ln with cache := markDirty d.cache r a } : State) =
      State.withHidden { memWrite s r a v ln with cache := markDirty s.cache r a }
        { d with cache := markDirty d.cache r a } := by
  cases r <;> rfl

/-- Buffers, masks and a list that are drawn anew take the place of the hidden masks and the hidden list. -/
theorem buffers_withHidden (s : State) (d : Hidden) (cv : Canvas) (l : List Descriptor) :
    ({ s.withHidden d with sprbuf := cv.buf, usage := cv.use, shown := l } : State) =
      State.withHidden { s with sprbuf := cv.buf, usage := cv.use, shown := l } ⟨cv.use, l, d.cache⟩ := rfl

@[simp] theorem lineResult_withHidden (s : State) (d : Hidden) (y : Nat) :
    lineResult (s.withHidden d) y = lineResult s y :=
  lineResult_congr rfl rfl rfl rfl rfl rfl rfl rfl rfl y

/-- The outcomes of `Effect` are outcomes of the command. -/
theorem exec_of_effect {i : Instr} {s t : State} (h : Effect s i t) : exec i s = .next t := by
  cases h with
  | refused _ hr => exact exec_of_not_inRange hr
  | nop | frame | reset => rfl
  | write r a v ln ha => rw [exec_writeInstr, writeRegion_of_lt v ln s ha]
  | read r a ha => rw [exec_readInstr, readRegion_of_lt s ha]
  | cwr0 k v ln | cwr1 k v ln => exact dif_pos k.isLt
  | crd0 k | crd1 k => exact readBank_of_lt _ s k.isLt
  | line y hy => exact exec_line_of_lt s hy

/-- A command has the same effect whatever the hidden state, but for the hidden state. -/
theorem Effect.withHidden {i : Instr} {s t : State} (h : Effect s i t) (d : Hidden) :
    ∃ d', Effect (s.withHidden d) i (t.withHidden d') := by
  cases h with
  | refused _ hr => exact ⟨d, .refused i hr⟩
  | nop => exact ⟨d, .nop⟩
  | write r a v ln ha =>
    refine ⟨{ d with cache := markDirty d.cache r a }, ?_⟩
    rw [← write_withHidden]
    exact .write r a v ln ha
  | read r a ha =>
    refine ⟨d, ?_⟩
    rw [← memRead_withHidden s d]
    exact .read r a ha
  | cwr0 k v ln => exact ⟨d, .cwr0 k v ln⟩
  | cwr1 k v ln => exact ⟨d, .cwr1 k v ln⟩
  | crd0 k => exact ⟨d, .crd0 k⟩
  | crd1 k => exact ⟨d, .crd1 k⟩
  | frame =>
    refine ⟨⟨(drawList s.par (buildList s.spr)).use, buildList s.spr, d.cache⟩, ?_⟩
    rw [← buffers_withHidden]
    exact .frame
  | line y hy =>
    refine ⟨{ d with cache := lineCaches (s.withHidden d) y }, ?_⟩
    rw [← lineResult_withHidden s d]
    exact .line y hy
  | reset => exact ⟨{ d with cache := Caches.allDirty }, .reset⟩

/-- A step takes states that differ in the hidden state alone to such states. -/
theorem step_withHidden {s t : State} (h : step s = .next t) (d : Hidden) :
    ∃ d', step (s.withHidden d) = .next (t.withHidden d') := by
  obtain ⟨hs, rfl⟩ | ⟨w, rest, hs, hd, rfl⟩ | ⟨w, rest, i, hs, hd, hx⟩ := step_cases h
  · exact ⟨d, step_of_idle hs⟩
  · exact ⟨d, step_of_illegal hs hd⟩
  · obtain ⟨d', he⟩ := (effect_of_exec hx).withHidden d
    exact ⟨d', (step_of_decode (s := s.withHidden d) hs hd).trans (exec_of_effect he)⟩

/-- So does a run. -/
theorem run_withHidden {s t : State} (h : s.run = .next t) :
    ∀ d : Hidden, ∃ d', (s.withHidden d).run = .next (t.withHidden d') := by
  refine run_induction (P := fun s t => ∀ d : Hidden, ∃ d', (s.withHidden d).run = .next (t.withHidden d'))
    (fun s hs d => ⟨d, run_nil hs⟩) (fun s u t w rest hs hu _ ih d => ?_) s t h
  obtain ⟨d₁, hstep⟩ := step_withHidden hu d
  obtain ⟨d₂, hrun⟩ := ih d₁
  exact ⟨d₂, (run_cons (s := s.withHidden d) hs hstep).trans hrun⟩

/-- Settles O45: a run from the other hidden state ends in the same state but for the hidden state. -/
theorem outputsIgnoreTheHiddenState : Obligations.OutputsIgnoreTheHiddenState := by
  intro s t t' u l c h h'
  obtain ⟨d, hd⟩ := run_withHidden h ⟨u, l, c⟩
  have ht : t' = t.withHidden d := Host.Outcome.next.inj (h'.symm.trans hd)
  rw [ht]
  rfl

end Sys2Proof.Machine
end

section
/-! SUPPORT. The rules about storage of 20_memory.md: an offset outside its space is refused (R97), a region write
stores the enabled lanes (R91), a read returns what was written last, a repeated access changes no more (R95), and a
step adds nothing to the command it takes (R94, R99). -/

namespace Sys2Proof.Machine

/-! ### Offsets outside a space -/

@[simp] theorem writeInstr_inRange (r : Region) (a : Nat) (v : Half) (ln : BitVec 2) (visH : Nat) :
    (writeInstr r a v ln).inRange visH = decide (a < r.size) := by
  cases r <;> rfl

@[simp] theorem readInstr_inRange (r : Region) (a visH : Nat) :
    (readInstr r a).inRange visH = decide (a < r.size) := by
  cases r <;> rfl

/-- A region's write and read are both refused from the region's size on (R97). -/
theorem refusedCommand_of_size_le {r : Region} {a : Nat} (v : Half) (ln : BitVec 2) (s : State) (h : r.size ≤ a) :
    RefusedCommand (writeInstr r a v ln) s ∧ RefusedCommand (readInstr r a) s :=
  ⟨refusedCommand_of_not_inRange (by simpa using h), refusedCommand_of_not_inRange (by simpa using h)⟩

/-- A command that asks for a bank index below 8 is refused from index 8 on (R97). -/
theorem refusedCommand_of_bank_size_le {i : Instr} {k : Nat} (s : State) (hk : 8 ≤ k)
    (hi : i.inRange s.par.visH = decide (k < 8)) : RefusedCommand i s :=
  refusedCommand_of_not_inRange (hi.trans (decide_eq_false (Nat.not_lt.2 hk)))

/-- Settles O9, by the size of each region and the eight halfwords of each bank. -/
theorem offsetOutsideItsSpaceIsRefused : Obligations.OffsetOutsideItsSpaceIsRefused := fun s _ v ln =>
  ⟨refusedCommand_of_size_le (r := .spr) v ln s, refusedCommand_of_size_le (r := .pf) v ln s,
    refusedCommand_of_size_le (r := .txt) v ln s, refusedCommand_of_size_le (r := .chr) v ln s,
    refusedCommand_of_size_le (r := .lin) v ln s, refusedCommand_of_size_le (r := .piv) v ln s,
    fun h => ⟨refusedCommand_of_bank_size_le s h rfl, refusedCommand_of_bank_size_le s h rfl⟩,
    fun h => ⟨refusedCommand_of_bank_size_le s h rfl, refusedCommand_of_bank_size_le s h rfl⟩⟩

/-! ### Region writes and reads -/

theorem exec_writeInstr_of_lt {r : Region} {a : Nat} (v : Half) (ln : BitVec 2) (s : State) (h : a < r.size) :
    exec (writeInstr r a v ln) s = .next { memWrite s r a v ln with cache := markDirty s.cache r a } :=
  (exec_writeInstr r a v ln s).trans (writeRegion_of_lt v ln s h)

theorem exec_readInstr_of_lt {r : Region} {a : Nat} (s : State) (h : a < r.size) :
    exec (readInstr r a) s = .next (emit (.half (memRead s r a)) s) :=
  (exec_readInstr r a s).trans (readRegion_of_lt s h)

@[simp] theorem memRead_with_cache (s : State) (c : Caches) (r : Region) (a : Nat) :
    memRead { s with cache := c } r a = memRead s r a := by
  rw [memRead, State.mem_with_cache, memRead]

@[simp] theorem memWrite_with_cache (s : State) (c : Caches) (r : Region) (a : Nat) (v : Half) (ln : BitVec 2) :
    memWrite { s with cache := c } r a v ln = { memWrite s r a v ln with cache := c } := by
  cases r <;> rfl

theorem memWrite_mem_self (s : State) (r : Region) (a : Nat) (v : Half) (ln : BitVec 2) :
    (memWrite s r a v ln).mem r = writeHalf (s.mem r) a (laneMerge (memRead s r a) v ln) := by
  rw [memWrite_mem, if_pos rfl]

/-- Of the state a region write changes the region alone. -/
theorem setMem_memWrite_mem (s : State) (r : Region) (a : Nat) (v : Half) (ln : BitVec 2) :
    s.setMem r ((memWrite s r a v ln).mem r) = memWrite s r a v ln := by
  rw [memWrite_mem_self, memWrite]

/-- Writing back what a halfword holds changes no byte, whether or not the memory is in canonical form. -/
theorem readByte_writeHalf_readHalf (m : Memory) (a b : Nat) :
    readByte (writeHalf m a (readHalf m a)) b = readByte m b := by
  rw [writeHalf, readHalf_hi, readHalf_lo, readByte_writeByte, readByte_writeByte]
  split
  · next h => rw [h]
  · split
    · next h => rw [h]
    · rfl

/-- Settles O14: the state is the lane-masked write with its dirty marks, and a write of no lane writes back what
the halfword holds. -/
theorem regionWriteStoresTheEnabledLanes : Obligations.RegionWriteStoresTheEnabledLanes := by
  intro r a v ln s ha
  refine ⟨_, exec_writeInstr_of_lt v ln s ha, ?_⟩
  simp only [memRead_with_cache, State.mem_with_cache, setMem_memWrite_mem]
  refine ⟨?merge, ?bytes, ?regions, trivial, ?noLane, trivial⟩
  case merge => exact (memRead_memWrite s r r a a v ln).trans (if_pos ⟨rfl, rfl⟩)
  case bytes =>
    intro b h0 h1
    rw [memWrite_mem_self, readByte_writeHalf_ne _ _ h0 h1]
  case regions =>
    intro r' hr
    rw [memWrite_mem, if_neg hr]
  case noLane =>
    rintro rfl b
    rw [memWrite_mem_self, laneMerge_none]
    exact readByte_writeHalf_readHalf (s.mem r) a b

/-- Settles O17: a write of both lanes leaves the data at its own offset alone, and the read returns what stands at
the offset it reads. -/
theorem readAfterWriteReturnsTheData : Obligations.ReadAfterWriteReturnsTheData := by
  intro r r' a b v s ha hb
  refine ⟨_, _, exec_writeInstr_of_lt v 3#2 s ha, exec_readInstr_of_lt _ hb, ?_⟩
  rw [emit_out, memRead_with_cache, memRead_memWrite, laneMerge_both, memWrite_out]

/-! ### Repeated accesses -/

/-- A region read leaves every field but the returned values and, when it is refused, the mark (R95). -/
theorem exec_readInstr_frame {r : Region} {a : Nat} {s t : State} (h : exec (readInstr r a) s = .next t) :
    { t with out := s.out, mark := s.mark } = s := by
  rcases lt_or_ge a r.size with ha | ha
  · rw [exec_readInstr_of_lt s ha] at h
    cases h
    rfl
  · rw [exec_readInstr, readRegion_of_le s ha, refuse_eq] at h
    cases h
    rfl

/-- A command outside the interface that is refused again leaves the mark of its first refusal (R301). -/
theorem exec_twice_of_not_inRange {i : Instr} {s t : State} (hr : i.inRange s.par.visH = false)
    (h : exec i s = .next t) : exec i t = .next t := by
  rw [exec_of_not_inRange hr] at h
  cases h
  refine Eq.trans (exec_of_not_inRange hr) ?_
  rw [Option.or_assoc, Option.or_self]

/-- A region write inside the region, done again, finds the merged halfword and the dirty marks it would leave. -/
theorem exec_writeInstr_twice {r : Region} {a : Nat} {v : Half} {ln : BitVec 2} {s t : State}
    (hm : Memory.wf (s.mem r) r.size = true) (ha : a < r.size) (h : exec (writeInstr r a v ln) s = .next t) :
    exec (writeInstr r a v ln) t = .next t := by
  rw [exec_writeInstr_of_lt v ln s ha] at h
  cases h
  rw [exec_writeInstr_of_lt v ln _ ha, memWrite_with_cache, memWrite_twice v ln hm ha, markDirty_idem]

/-- Settles O18: a repeated write is inside the region in both states or refused in both. -/
theorem readsAndRepeatedWritesHaveNoFurtherEffect : Obligations.ReadsAndRepeatedWritesHaveNoFurtherEffect := by
  refine ⟨fun r a s t => exec_readInstr_frame, fun r a v ln s t hs h => ?_⟩
  rcases lt_or_ge a r.size with ha | ha
  · exact exec_writeInstr_twice (hs.mem_wf r) ha h
  · exact exec_twice_of_not_inRange (by simpa using ha) h

/-! ### A step and its command -/

/-- Settles O6. -/
theorem stepRunsTheDecodedCommand : Obligations.StepRunsTheDecodedCommand :=
  fun _ _ _ _ hs hd => step_of_decode hs hd

end Sys2Proof.Machine
end

section
/-! SUPPORT. The rules about command words of 30_encoding.md: the decoder and the encoder are inverse (R110..R117), the
table of R114 decides every word, and a word that matches no row is refused (R115). -/

namespace Sys2Proof

/-! ### The rows and the encoder -/

/-- The forms of a row of R114: how the mask of the row, the instruction it builds and the word of that instruction
belong together. -/
inductive OpRow.Form : OpRow → Prop where
  | bare {name : String} {op : BitVec 4} {i : Instr} (hwf : i.wf = true) (henc : encode i = pack op 0 0 0 0) :
      OpRow.Form ⟨name, pack op 0 0 0 0, maskNone, fun _ _ _ => i⟩
  | write {name : String} {op sel : BitVec 4} {mk : Nat → Half → BitVec 2 → Instr}
      (h : ∀ a v ln, (mk a v ln).wf = fitsAddr a ∧ encode (mk a v ln) = pack op sel ln a v) :
      OpRow.Form ⟨name, pack op sel 0 0 0, maskWrite, mk⟩
  | addr {name : String} {op sel : BitVec 4} {mk : Nat → Instr}
      (h : ∀ a, (mk a).wf = fitsAddr a ∧ encode (mk a) = pack op sel 0 a 0) :
      OpRow.Form ⟨name, pack op sel 0 0 0, maskAddr, fun a _ _ => mk a⟩

theorem OpRow.form_of_mem : ∀ r ∈ opcodeTable, r.Form := List.forall_iff_forall_mem.1
  ⟨.bare (op := 0) (i := .nop) rfl rfl,
    .write (op := 1) (sel := 0) (mk := .wrspr) fun _ _ _ => ⟨rfl, rfl⟩,
    .write (op := 1) (sel := 1) (mk := .wrpf) fun _ _ _ => ⟨rfl, rfl⟩,
    .write (op := 1) (sel := 2) (mk := .wrtxt) fun _ _ _ => ⟨rfl, rfl⟩,
    .write (op := 1) (sel := 3) (mk := .wrchr) fun _ _ _ => ⟨rfl, rfl⟩,
    .write (op := 1) (sel := 4) (mk := .wrlin) fun _ _ _ => ⟨rfl, rfl⟩,
    .write (op := 1) (sel := 5) (mk := .wrpiv) fun _ _ _ => ⟨rfl, rfl⟩,
    .addr (op := 2) (sel := 0) (mk := .rdspr) fun _ => ⟨rfl, rfl⟩,
    .addr (op := 2) (sel := 1) (mk := .rdpf) fun _ => ⟨rfl, rfl⟩,
    .addr (op := 2) (sel := 2) (mk := .rdtxt) fun _ => ⟨rfl, rfl⟩,
    .addr (op := 2) (sel := 3) (mk := .rdchr) fun _ => ⟨rfl, rfl⟩,
    .addr (op := 2) (sel := 4) (mk := .rdlin) fun _ => ⟨rfl, rfl⟩,
    .addr (op := 2) (sel := 5) (mk := .rdpiv) fun _ => ⟨rfl, rfl⟩,
    .write (op := 3) (sel := 0) (mk := .cwr0) fun _ _ _ => ⟨rfl, rfl⟩,
    .write (op := 3) (sel := 1) (mk := .cwr1) fun _ _ _ => ⟨rfl, rfl⟩,
    .addr (op := 4) (sel := 0) (mk := .crd0) fun _ => ⟨rfl, rfl⟩,
    .addr (op := 4) (sel := 1) (mk := .crd1) fun _ => ⟨rfl, rfl⟩,
    .bare (op := 5) (i := .frame) rfl rfl,
    .addr (op := 6) (sel := 0) (mk := .line) fun _ => ⟨rfl, rfl⟩,
    .bare (op := 7) (i := .reset) rfl rfl⟩

/-! ### Decoding and encoding are inverse -/

/-- What a row builds from operands that fit is what its word decodes to. -/
theorem decode_encode_make {r : OpRow} (hr : r ∈ opcodeTable) {a : Nat} (ha : fitsAddr a = true) (v : Half)
    (ln : BitVec 2) : decode (encode (r.make a v ln)) = .ok (r.make a v ln) := by
  cases r.form_of_mem hr with
  | bare hwf henc => exact decode_of_spells hr ((and_maskNone _).trans henc)
  | write h =>
    simp only [(h a v ln).2]
    rw [decode_of_spells hr (pack_and_maskWrite ..)]
    obtain ⟨-, -, -, hln, haddr, hdata⟩ := pack_fields _ _ ln a v
    rw [hln, haddr, hdata, addr_roundtrip ha]
  | addr h =>
    simp only [(h a).2]
    rw [decode_of_spells hr (pack_and_maskAddr ..)]
    obtain ⟨-, -, -, -, haddr, -⟩ := pack_fields _ _ 0 a 0
    rw [haddr, addr_roundtrip ha]

/-- What a row builds from the fields of a word that spells it is well formed and has that word. -/
theorem wf_encode_make_of_spells {r : OpRow} (hr : r ∈ opcodeTable) {w : Word} (h : w &&& r.mask = r.pattern) :
    (r.make (addrField w).toNat (dataField w) (lnField w)).wf = true ∧
      encode (r.make (addrField w).toNat (dataField w) (lnField w)) = w := by
  have ha : fitsAddr (addrField w).toNat = true := decide_eq_true (addrField_toNat_lt w)
  cases r.form_of_mem hr with
  | bare hwf henc => exact ⟨hwf, henc.trans (h.symm.trans (and_maskNone w))⟩
  | write hmk => exact ⟨(hmk ..).1.trans ha, (hmk ..).2.trans (pack_of_maskWrite h)⟩
  | addr hmk => exact ⟨(hmk _).1.trans ha, (hmk _).2.trans (pack_of_maskAddr h)⟩

/-- A row of the table builds the instruction, from operands that fit. -/
def Instr.HasRow (i : Instr) : Prop :=
  ∃ r ∈ opcodeTable, ∃ a v ln, fitsAddr a = true ∧ r.make a v ln = i

theorem Instr.hasRow_of_index (k : Fin 20) {a : Nat} (ha : fitsAddr a = true) (v : Half) (ln : BitVec 2) :
    ((opcodeTable[k.val]'k.isLt).make a v ln).HasRow :=
  ⟨_, List.getElem_mem _, a, v, ln, ha, rfl⟩

theorem Instr.hasRow_of_wf {i : Instr} (h : i.wf = true) : i.HasRow := by
  have fits : fitsAddr 0 = true := by decide
  cases i with
  | nop => exact hasRow_of_index 0 fits 0 0
  | wrspr a v ln => exact hasRow_of_index 1 h v ln
  | wrpf a v ln => exact hasRow_of_index 2 h v ln
  | wrtxt a v ln => exact hasRow_of_index 3 h v ln
  | wrchr a v ln => exact hasRow_of_index 4 h v ln
  | wrlin a v ln => exact hasRow_of_index 5 h v ln
  | wrpiv a v ln => exact hasRow_of_index 6 h v ln
  | rdspr a => exact hasRow_of_index 7 h 0 0
  | rdpf a => exact hasRow_of_index 8 h 0 0
  | rdtxt a => exact hasRow_of_index 9 h 0 0
  | rdchr a => exact hasRow_of_index 10 h 0 0
  | rdlin a => exact hasRow_of_index 11 h 0 0
  | rdpiv a => exact hasRow_of_index 12 h 0 0
  | cwr0 k v ln => exact hasRow_of_index 13 h v ln
  | cwr1 k v ln => exact hasRow_of_index 14 h v ln
  | crd0 k => exact hasRow_of_index 15 h 0 0
  | crd1 k => exact hasRow_of_index 16 h 0 0
  | frame => exact hasRow_of_index 17 fits 0 0
  | line y => exact hasRow_of_index 18 h 0 0
  | reset => exact hasRow_of_index 19 fits 0 0

/-- Settles O3: a row builds the instruction, and each form of row decodes the word of what it builds. -/
theorem decodeOfEncodeIsTheInstruction : Obligations.DecodeOfEncodeIsTheInstruction := by
  intro i h
  obtain ⟨r, hr, a, v, ln, ha, rfl⟩ := Instr.hasRow_of_wf h
  exact decode_encode_make hr ha v ln

/-- Settles O4: a word that decodes spells a row, and each form of row has the word for what it builds of it. -/
theorem decodedWordIsTheEncoding : Obligations.DecodedWordIsTheEncoding := by
  intro w i h
  obtain ⟨r, hr, hspells, rfl⟩ := row_of_decode h
  exact wf_encode_make_of_spells hr hspells

/-! ### The table of R114 -/

/-- One word spells one row. -/
theorem row_unique {r r' : OpRow} (hr : r ∈ opcodeTable) (hr' : r' ∈ opcodeTable) {w : Word}
    (h : w &&& r.mask = r.pattern) (h' : w &&& r'.mask = r'.pattern) : r = r' :=
  Option.some.inj ((find?_of_pairwise rows_disjoint hr h).symm.trans (find?_of_pairwise rows_disjoint hr' h'))

/-- Settles O2: the rows are pairwise disjoint, so the row found is the row spelled. -/
theorem opcodeTableDecodesEveryWord : Obligations.OpcodeTableDecodesEveryWord :=
  ⟨rfl, fun _ hr _ h => decode_of_spells hr h,
    fun _ hr _ hr' _ h h' => congrArg OpRow.mnemonic (row_unique hr hr' h h'),
    fun _ h => decode_of_no_row h, fun _ _ h => Machine.refusedCommand_of_not_inRange h⟩

/-! ### Reserved fields (R115) -/

/-- Every row fixes `OP`, `SEL` and `RSV`. -/
theorem rows_fix_op_sel_rsv : ∀ r ∈ opcodeTable, opField r.mask = BitVec.allOnes 4 ∧
    selField r.mask = BitVec.allOnes 4 ∧ rsvField r.mask = BitVec.allOnes 6 := by decide

/-- `OP`, `SEL` and `RSV` of a row are assigned values (R112, R113). -/
theorem rows_op_sel_rsv : ∀ r ∈ opcodeTable,
    (opField r.pattern).toNat < 8 ∧
    (opField r.pattern = 1#4 ∨ opField r.pattern = 2#4 → (selField r.pattern).toNat < 6) ∧
    (opField r.pattern = 3#4 ∨ opField r.pattern = 4#4 → (selField r.pattern).toNat < 2) ∧
    (opField r.pattern = 0#4 ∨ 5 ≤ (opField r.pattern).toNat → selField r.pattern = 0#4) ∧
    rsvField r.pattern = 0#6 := by decide

/-- A row other than a write fixes `LN` and `DATA` to 0. -/
theorem rows_fix_ln_data : ∀ r ∈ opcodeTable, ¬ (opField r.pattern = 1#4 ∨ opField r.pattern = 3#4) →
    (lnField r.mask = BitVec.allOnes 2 ∧ dataField r.mask = BitVec.allOnes 16) ∧
    lnField r.pattern = 0#2 ∧ dataField r.pattern = 0#16 := by decide

/-- The rows of NOP, FRAME and RESET fix `ADDR` to 0. -/
theorem rows_fix_addr : ∀ r ∈ opcodeTable,
    opField r.pattern = 0#4 ∨ opField r.pattern = 5#4 ∨ opField r.pattern = 7#4 →
    addrField r.mask = BitVec.allOnes 32 ∧ addrField r.pattern = 0#32 := by decide

section
variable {r : OpRow} (hr : r ∈ opcodeTable) {w : Word} (h : w &&& r.mask = r.pattern)
include hr h

theorem op_sel_rsv_of_spells :
    opField w = opField r.pattern ∧ selField w = selField r.pattern ∧ rsvField w = rsvField r.pattern := by
  obtain ⟨mop, msel, mrsv⟩ := rows_fix_op_sel_rsv r hr
  obtain ⟨hop, hsel, hrsv, -⟩ := fields_and w r.mask
  rw [h] at hop hsel hrsv
  rw [hop, hsel, hrsv, mop, msel, mrsv]
  simp only [BitVec.and_allOnes, and_self]

theorem ln_data_of_spells (hop : ¬ (opField w = 1#4 ∨ opField w = 3#4)) :
    lnField w = 0#2 ∧ dataField w = 0#16 := by
  rw [(op_sel_rsv_of_spells hr h).1] at hop
  obtain ⟨⟨mln, mdata⟩, pln, pdata⟩ := rows_fix_ln_data r hr hop
  obtain ⟨-, -, -, hln, -, hdata⟩ := fields_and w r.mask
  rw [h, mln, pln, BitVec.and_allOnes] at hln
  rw [h, mdata, pdata, BitVec.and_allOnes] at hdata
  exact ⟨hln.symm, hdata.symm⟩

theorem addr_of_spells (hop : opField w = 0#4 ∨ opField w = 5#4 ∨ opField w = 7#4) : addrField w = 0#32 := by
  rw [(op_sel_rsv_of_spells hr h).1] at hop
  obtain ⟨maddr, paddr⟩ := rows_fix_addr r hr hop
  obtain ⟨-, -, -, -, haddr, -⟩ := fields_and w r.mask
  rw [h, maddr, paddr, BitVec.and_allOnes] at haddr
  exact haddr.symm

end

/-- A word that matches no row is taken from the stream and refused. -/
theorem Machine.step_of_no_row {s : Machine.State} {w : Word} {rest : List Word} (hs : s.stream = w :: rest)
    (h : ∀ r ∈ opcodeTable, w &&& r.mask ≠ r.pattern) :
    ∃ m, Machine.step s = .next { s with stream := rest, mark := some m } := by
  obtain ⟨m, hm⟩ := some_of_or s.mark .illegalEncoding
  exact ⟨m, by rw [step_of_illegal hs (decode_of_no_row h), hm]⟩

/-- Settles O5: each reserved value contradicts what a row fixes. -/
theorem illegalWordIsRefused : Obligations.IllegalWordIsRefused := by
  refine ⟨fun s w rest hs h => Machine.step_of_no_row hs h, fun w hw r hr h => ?_, by decide⟩
  obtain ⟨eop, esel, ersv⟩ := op_sel_rsv_of_spells hr h
  obtain ⟨lop, lsel6, lsel2, lsel0, lrsv⟩ := rows_op_sel_rsv r hr
  rw [← eop] at lop lsel6 lsel2 lsel0
  rw [← esel] at lsel6 lsel2 lsel0
  rw [← ersv] at lrsv
  rcases hw with hw | ⟨hop, hw⟩ | ⟨hop, hw⟩ | ⟨hop, hw⟩ | hw | ⟨hop, hw⟩ | ⟨hop, hw⟩
  · exact Nat.not_le.2 lop hw
  · exact Nat.not_le.2 (lsel6 hop) hw
  · exact Nat.not_le.2 (lsel2 hop) hw
  · exact hw (lsel0 hop)
  · exact hw lrsv
  · obtain ⟨hln, hdata⟩ := ln_data_of_spells hr h hop
    exact hw.elim (· hln) (· hdata)
  · exact hw (addr_of_spells hr h hop)

/-- Settles O1: the search of the table, run on each word. -/
theorem spelledWordsDecode : Obligations.SpelledWordsDecode := by
  unfold Obligations.SpelledWordsDecode
  decide

end Sys2Proof
end

section
/-! SUPPORT. The rules about stored words and the assembler of 30_encoding.md: a descriptor's fields (R131), the bounds
of a clip plane (R136) and the pseudo-instructions (R118). -/

namespace Sys2Proof.Machine

/-! ### Fields as numbers -/

theorem toNat_extractLsb' {n : Nat} (x : BitVec n) (start len : Nat) :
    (x.extractLsb' start len).toNat = x.toNat / 2 ^ start % 2 ^ len := by
  rw [BitVec.extractLsb'_toNat, Nat.shiftRight_eq_div_pow]

theorem toNat_low_byte (x : Half) : (x.extractLsb' 0 8).toNat = x.toNat % 256 := by simp

theorem toNat_high_byte (x : Half) : (x.extractLsb' 8 8).toNat = x.toNat / 256 := by
  rw [toNat_extractLsb']
  have := x.isLt
  omega

theorem extractLsb'_one {n : Nat} (x : BitVec n) (k : Nat) : x.extractLsb' k 1 = BitVec.ofBool (x.getLsbD k) := by
  apply BitVec.eq_of_getLsbD_eq
  intro i hi
  obtain rfl : i = 0 := by omega
  simp

/-- A bit put above a field adds its power of two. -/
theorem toNat_bit_append {n : Nat} (b : Bool) (y : BitVec n) :
    (BitVec.ofBool b ++ y).toNat = (if b then 2 ^ n else 0) + y.toNat := by
  rw [BitVec.toNat_append, ← Nat.shiftLeft_add_eq_or_of_lt y.isLt, BitVec.toNat_ofBool]
  cases b <;> simp [Nat.shiftLeft_eq]

/-- A sign bit put above a field takes its power of two away. -/
theorem toInt_bit_append {n : Nat} (b : Bool) (y : BitVec n) :
    (BitVec.ofBool b ++ y).toInt = (y.toNat : Int) - (if b then 2 ^ n else 0) := by
  rw [BitVec.toInt_append, BitVec.toInt_ofBool]
  cases b <;> simp
  ring

/-! ### Sprite entries (R131) -/

/-- Settles O37, by the number each field of the entry holds. -/
theorem descriptorTakesItsFieldsFromTheEntry : Obligations.DescriptorTakesItsFieldsFromTheEntry := by
  intro spr e w d
  refine ⟨?code, toNat_low_byte (w 2), rfl, rfl, toNat_extractLsb' (w 1) 4 4, ?x, ?y, toNat_low_byte (w 6),
    toNat_high_byte (w 6), ?group⟩
  case code =>
    have hcode : d.code = BitVec.ofBool ((w 1).getLsbD 0) ++ w 0 := congrArg (· ++ w 0) (extractLsb'_one (w 1) 0)
    rw [hcode, toNat_bit_append]
    rfl
  case x => rw [← toNat_low_byte]; rfl
  case y => rw [← toNat_high_byte]; rfl
  case group =>
    have hgroup : d.group = (w 2).toNat % 256 / 64 % 4 := by
      rw [← toNat_low_byte]
      exact toNat_extractLsb' _ 6 2
    omega

/-! ### Clip bounds (R136) -/

theorem clipLeft_eq (n : LineSnap) (k : Fin 4) :
    clipLeft n k = ((n.clipLo k).toNat % 256 : Nat) - (if n.clipHi.getLsbD k.val then 256 else 0) := by
  rw [clipLeft, extractLsb'_one, toInt_bit_append, toNat_low_byte]
  rfl

theorem clipRight_eq (n : LineSnap) (k : Fin 4) :
    clipRight n k = ((n.clipLo k).toNat / 256 : Nat) - (if n.clipHi.getLsbD (4 + k.val) then 256 else 0) := by
  rw [clipRight, extractLsb'_one, toInt_bit_append, toNat_high_byte]
  rfl

/-- Settles O48: a byte and a sign bit of weight -256. -/
theorem clipBoundsAreNineBitSigned : Obligations.ClipBoundsAreNineBitSigned := by
  intro n k
  refine ⟨clipLeft_eq n k, clipRight_eq n k, ?_⟩
  have := (n.clipLo k).isLt
  rw [clipLeft_eq, clipRight_eq]
  omega

/-! ### Pseudo-instructions (R118) -/

/-- The geometry of R181, written out for both addressing modes. -/
theorem cellAddr_eq (p : Params) (k col row : Nat) :
    cellAddr p k col row =
      if p.extended then k * 0x1000 + 2 * (row * 64 + col) else k * 0x800 + 2 * (row * 32 + col) := by
  unfold cellAddr pfBase mapCols
  split <;> rfl

/-- A byte in the upper lane is the byte times 256. -/
theorem setWidth_shiftLeft_eight (b : Byte) : b.setWidth 16 <<< 8 = BitVec.ofNat 16 (b.toNat * 256) := by
  apply BitVec.eq_of_toNat_eq
  simp [Nat.shiftLeft_eq]

/-- Settles O60: the geometry of SETPF and the bytes of WRBHI and WRBLO are computed; every other row is its expansion. -/
theorem pseudoInstructionsExpandAsTabled : Obligations.PseudoInstructionsExpandAsTabled := by
  intro p
  refine ⟨fun k col row attr idx => ?setpf, fun _ _ _ => rfl, fun _ _ _ => rfl, fun _ _ => rfl,
    fun r a b => ?wrbhi, fun r a b => ?wrblo, fun _ _ _ _ => rfl, fun _ => rfl⟩
  case setpf => rw [← cellAddr_eq]; rfl
  case wrbhi => rw [← setWidth_shiftLeft_eight]; rfl
  case wrblo => rw [BitVec.ofNat_toNat]; rfl

end Sys2Proof.Machine
end

section
/-! SUPPORT. The storage commands of 40_bus_interface.md: what a region write makes dirty (R151..R156), what a region read
returns (R157..R162), the control banks (R163..R166), NOP (R150) and RESET (R167). -/

namespace Sys2Proof.Machine

/-! ### Dirty marks of a region write -/

/-- On either side of 0x4000 a PF write leaves every cache but that of the playfield cells (R152). -/
theorem markDirty_playfield (c : Caches) (a : Nat) :
    markDirty c .pf a = { c with pf := if a < 0x4000 then Sparse.del c.pf (a / 2) else c.pf } := by
  rw [markDirty]
  split <;> rfl

section
variable (c : Caches) (r : Region) (a k : Nat)

/-- The two halfwords of a playfield cell share one element, and PF from 0x4000 on holds none (R152). -/
theorem find?_markDirty_pf : Sparse.find? (markDirty c r a).pf k =
    if r = .pf ∧ a < 0x4000 ∧ k = a / 2 then none else Sparse.find? c.pf k := by
  cases r with
  | pf =>
    rw [markDirty_playfield]
    by_cases ha : a < 0x4000 <;> simp [ha, Sparse.find?_del]
  | spr | txt | chr | lin | piv => rfl

/-- An element of the char set is 16 halfwords (R153). -/
theorem find?_markDirty_chr : Sparse.find? (markDirty c r a).chr k =
    if r = .chr ∧ k = a / 16 then none else Sparse.find? c.chr k := by
  cases r with
  | chr => simp [markDirty, Sparse.find?_del]
  | pf => rw [markDirty_playfield]; rfl
  | spr | txt | lin | piv => rfl

/-- An element of the pivot set is 16 halfwords (R156). -/
theorem find?_markDirty_piv : Sparse.find? (markDirty c r a).piv k =
    if r = .piv ∧ k = a / 16 then none else Sparse.find? c.piv k := by
  cases r with
  | piv => simp [markDirty, Sparse.find?_del]
  | pf => rw [markDirty_playfield]; rfl
  | spr | txt | chr | lin => rfl

/-- A text cell is one halfword (R154). -/
theorem find?_markDirty_txt : Sparse.find? (markDirty c r a).txt k =
    if r = .txt ∧ k = a then none else Sparse.find? c.txt k := by
  cases r with
  | txt => simp [markDirty, Sparse.find?_del]
  | pf => rw [markDirty_playfield]; rfl
  | spr | chr | lin | piv => rfl

/-- A pixel-layer cell is keyed by the TXT offset of the word that gives its palette (R154, log entry 6). -/
theorem find?_markDirty_pix : Sparse.find? (markDirty c r a).pix k =
    if r = .txt ∧ k = a then none else Sparse.find? c.pix k := by
  cases r with
  | txt => simp [markDirty, Sparse.find?_del]
  | pf => rw [markDirty_playfield]; rfl
  | spr | chr | lin | piv => rfl

end

/-- Settles O15: the write leaves the caches with the marks of `markDirty`, one lemma for each cache. -/
theorem regionWriteMarksItsElementsDirty : Obligations.RegionWriteMarksItsElementsDirty := fun r a v ln s ha =>
  ⟨_, exec_writeInstr_of_lt v ln s ha, fun k =>
    ⟨find?_markDirty_pf s.cache r a k, find?_markDirty_chr s.cache r a k, find?_markDirty_piv s.cache r a k,
      find?_markDirty_txt s.cache r a k, find?_markDirty_pix s.cache r a k⟩⟩

/-! ### Region reads -/

/-- A region read returns the halfword and changes no state, and is refused from the region's size on. -/
theorem exec_readInstr_returns_or_refused (r : Region) (a : Nat) (s : State) :
    (a < r.size → exec (readInstr r a) s = .next { s with out := s.out ++ [.half (memRead s r a)] }) ∧
      (r.size ≤ a → RefusedCommand (readInstr r a) s) :=
  ⟨exec_readInstr_of_lt s, fun h => (refusedCommand_of_size_le 0#16 0#2 s h).2⟩

/-- Settles O16: one rule for the six regions. -/
theorem regionReadReturnsTheHalfword : Obligations.RegionReadReturnsTheHalfword := fun s a =>
  ⟨exec_readInstr_returns_or_refused .spr a s, exec_readInstr_returns_or_refused .pf a s,
    exec_readInstr_returns_or_refused .txt a s, exec_readInstr_returns_or_refused .chr a s,
    exec_readInstr_returns_or_refused .lin a s, exec_readInstr_returns_or_refused .piv a s⟩

/-! ### Control banks -/

/-- The scroll offset of the pixel layer is the low 9 bits of halfword 5 (R36). -/
theorem pixYOff_eq (b : Vector Half 8) : pixYOff b = (b[5]).toNat % 512 := by
  rw [pixYOff, toNat_extractLsb', pow_zero, Nat.div_one]
  rfl

/-- Settles O19: the written bank is `bankWrite`, which a LINE's snapshot takes as it stands. -/
theorem bankWriteStoresTheEnabledLanes : Obligations.BankWriteStoresTheEnabledLanes := by
  intro v ln s m
  refine ⟨fun i => ?cwr0, fun i => ?cwr1, fun i hi => ?refused⟩
  case cwr0 =>
    exact ⟨_, exec_of_effect (.cwr0 i v ln), bankRead_bankWrite_self s.ctrl0 i v ln,
      fun j hj => bankRead_bankWrite_ne s.ctrl0 v ln hj, rfl, fun _ => rfl⟩
  case cwr1 =>
    exact ⟨_, exec_of_effect (.cwr1 i v ln), bankRead_bankWrite_self s.ctrl1 i v ln,
      fun j hj => bankRead_bankWrite_ne s.ctrl1 v ln hj, rfl, fun _ => rfl, pixYOff_eq _⟩
  case refused => exact ⟨refusedCommand_of_bank_size_le s hi rfl, refusedCommand_of_bank_size_le s hi rfl⟩

/-- Settles O20: below 8 the effect of CRD0 and CRD1 is the returned halfword alone. -/
theorem bankReadReturnsTheHalfword : Obligations.BankReadReturnsTheHalfword := fun s =>
  ⟨fun i => ⟨exec_of_effect (.crd0 i), exec_of_effect (.crd1 i)⟩,
    fun _ hi => ⟨refusedCommand_of_bank_size_le s hi rfl, refusedCommand_of_bank_size_le s hi rfl⟩⟩

/-! ### NOP, the time between commands, and RESET -/

/-- Settles O13. -/
theorem nopAndIdleHoldTheState : Obligations.NopAndIdleHoldTheState :=
  ⟨fun _ => exec_of_effect .nop, fun _ => step_of_idle⟩

/-- Settles O21: a replicated bank reads 0 everywhere, and caches that list nothing are dirty everywhere. -/
theorem resetZeroesTheBanksAndDirtiesTheCaches : Obligations.ResetZeroesTheBanksAndDirtiesTheCaches := fun _ =>
  ⟨_, exec_of_effect .reset, fun i => ⟨bankRead_replicate 0#16 i, bankRead_replicate 0#16 i⟩,
    fun _ => ⟨rfl, rfl, rfl, rfl, rfl⟩, rfl⟩

end Sys2Proof.Machine
end

section
/-! SUPPORT. The tile decoder of 41_tile_decoder.md: merged pens (R174, R175), the nibble of a dynamic element (R171),
and the elements a LINE decodes (R173). -/

namespace Sys2Proof.Machine

/-! ### Merged pens -/

/-- The merge is bits 5:4 of the high-plane value above the low-plane pen. -/
theorem mergePlanes_eq_append (lo : BitVec 4) (hi : BitVec 6) : mergePlanes lo hi = hi.extractLsb' 4 2 ++ lo := by
  have hlow : ∀ i < 6, (0x0F#6).getLsbD i = decide (i < 4) := by decide
  have hhigh : ∀ i < 6, (0x30#6).getLsbD i = decide (4 ≤ i) := by decide
  apply BitVec.eq_of_getLsbD_eq
  intro i hi6
  rw [mergePlanes, BitVec.getLsbD_or, BitVec.getLsbD_and, BitVec.getLsbD_and, hlow i hi6, hhigh i hi6,
    BitVec.getLsbD_append]
  rcases lt_or_ge i 4 with h | h
  · simp [h, hi6, Nat.not_le.2 h]
  · simp [h, Nat.not_lt.2 h, Nat.add_sub_of_le h, show i - 4 < 2 by omega]

theorem toNat_mergePlanes (lo : BitVec 4) (hi : BitVec 6) :
    (mergePlanes lo hi).toNat = hi.toNat / 16 * 16 + lo.toNat := by
  rw [mergePlanes_eq_append, BitVec.toNat_append, ← Nat.shiftLeft_add_eq_or_of_lt lo.isLt, toNat_extractLsb',
    Nat.shiftLeft_eq]
  have := hi.isLt
  omega

/-- Settles O27: the playfield pen and the 6-bit sprite pen are merges of their own planes. -/
theorem mergedPenTakesBothPlanes : Obligations.MergedPenTakesBothPlanes := fun _ _ _ _ =>
  ⟨toNat_mergePlanes _ _, toNat_mergePlanes _ _, rfl⟩

/-! ### The nibble of a dynamic element -/

theorem charPacking_of_nil {p : Params} (h : p.charPacking = []) (t px py : Nat) :
    charPacking p t px py = defaultPacking px py := by
  rw [charPacking, h, Sparse.get_nil]

theorem toNat_nibble (h : Half) (n : BitVec 2) : (nibble h n).toNat = h.toNat / 2 ^ (4 * n.toNat) % 16 :=
  toNat_extractLsb' h (4 * n.toNat) 4

/-- The default packing names its halfword and its nibble without overflow. -/
theorem toNat_defaultPacking {px py : Nat} (hpx : px < 8) (hpy : py < 8) :
    (defaultPacking px py).1.toNat = py * 2 + px / 4 ∧ (defaultPacking px py).2.toNat = 3 - px % 4 := by
  rw [defaultPacking, BitVec.toNat_ofNat, BitVec.toNat_ofNat]
  omega

/-- With the default packing the pens of either dynamic set are the nibbles of its memory (R171). -/
theorem toNat_elementPen_of_defaultPacking {p : Params} {px py : Nat} (m : Memory) (t : Nat) (hpx : px < 8)
    (hpy : py < 8) (h : p.charPacking = []) :
    (elementPen p m t px py).toNat =
      (readHalf m (t * 16 + py * 2 + px / 4)).toNat / 2 ^ (12 - 4 * (px % 4)) % 16 := by
  obtain ⟨hhalf, hnibble⟩ := toNat_defaultPacking hpx hpy
  rw [elementPen, charPacking_of_nil h, toNat_nibble, hhalf, hnibble, ← Nat.add_assoc, Nat.mul_sub]

/-- Settles O28: one law for both dynamic sets, at the char and at the pivot memory. -/
theorem elementPenIsItsNibble : Obligations.ElementPenIsItsNibble := fun s t _ _ hpx hpy h =>
  ⟨toNat_elementPen_of_defaultPacking s.chr t hpx hpy h, toNat_elementPen_of_defaultPacking s.piv t hpx hpy h⟩

/-! ### The elements a LINE decodes -/

/-- A filled key is listed. -/
theorem Sparse.isSome_find?_fill_self {β : Type} (m : List (Nat × β)) (k : Nat) (v : β) :
    (Sparse.find? (Sparse.fill m k v) k).isSome := by
  rw [Sparse.find?_fill, if_pos rfl]
  rfl

/-- Sampling a playfield leaves its cell clean. -/
theorem touch_pf_clean (s : State) (n : LineSnap) (y : Nat) (p : Fin 4) (c : Caches) (x : Nat) :
    (Sparse.find? (touch s n y (.pf p) c x).pf
      (pfCellAddrAt s.par p.val (mapX s n p x) (mapY s n p y) / 2)).isSome :=
  Sparse.isSome_find?_fill_self _ _ _

/-- Sampling the text layer leaves its cell and the cell's element clean. -/
theorem touch_text_clean {n : LineSnap} (hs : pixSel n = false) (s : State) (y : Nat) (c : Caches) (x : Nat) :
    (Sparse.find? (touch s n y .piv c x).txt (textAddr x y)).isSome ∧
      (Sparse.find? (touch s n y .piv c x).chr ((memRead s .txt (textAddr x y)).toNat % 256)).isSome := by
  rw [touch_text (Bool.eq_false_iff.1 hs), ← toNat_low_byte]
  exact ⟨Sparse.isSome_find?_fill_self _ _ _, Sparse.isSome_find?_fill_self _ _ _⟩

/-- Sampling the pixel layer leaves its cell and the cell's element clean. -/
theorem touch_pix_clean {n : LineSnap} (hs : pixSel n = true) (s : State) (y : Nat) (c : Caches) (x : Nat) :
    (Sparse.find? (touch s n y .piv c x).pix (pixAttrAt (pixYOff s.ctrl1) x y)).isSome ∧
      (Sparse.find? (touch s n y .piv c x).piv (pixElement (pixYOff s.ctrl1) x y)).isSome := by
  rw [touch_pix hs]
  exact ⟨Sparse.isSome_find?_fill_self _ _ _, Sparse.isSome_find?_fill_self _ _ _⟩

/-- In a table whose every entry is the decode `f` of its key (a cache without stale entries), a listed key has it. -/
theorem Sparse.find?_eq_of_isSome {β : Type} {m : List (Nat × β)} {k : Nat} (f : Nat → β)
    (hm : ∀ e ∈ m, e.2 = f e.1) (h : (Sparse.find? m k).isSome) : Sparse.find? m k = some (f k) := by
  obtain ⟨v, hv⟩ := Option.isSome_iff_exists.1 h
  rw [hv, ← hm _ (Sparse.mem_of_find? hv)]

/-- A playfield cell that a LINE samples is clean after it, with the decode of its two halfwords. -/
theorem lineCaches_pf {s : State} {y x : Nat} {p : Fin 4} (hs : s.CacheCoherent) (hx : x < s.par.screenW)
    (hr : reaches s (latch s y) (.pf p) x = true) :
    Sparse.find? (lineCaches s y).pf
        (pfCellAddrAt s.par p.val (mapX s (latch s y) p x) (mapY s (latch s y) p y) / 2) =
      some (pfCellAt s.pf (pfCellAddrAt s.par p.val (mapX s (latch s y) p x) (mapY s (latch s y) p y))) := by
  have hclean := lineCaches_establishes (P := fun c => (Sparse.find? c.pf _).isSome) (Layer.mem_all (.pf p)) hx hr
    (touch_pf_clean s (latch s y) y p · x) fun l c x' => by
      obtain ⟨-, -, hpf, -, -⟩ := touch_keeps_clean s (latch s y) y l c x' _
      exact hpf
  obtain ⟨-, haligned⟩ := pfCellAddrAt_lt s (latch s y) p x y
  rw [Sparse.find?_eq_of_isSome (fun k => pfCellAt s.pf (2 * k))
    (fun e he => ((lineCaches_coherent y hs).pf e he).2) hclean, haligned]

/-- A text cell that a LINE samples, and the char element it names, are clean after it, with the decode of the RAM. -/
theorem lineCaches_text {s : State} {y x : Nat} (hs : s.CacheCoherent) (hx : x < s.par.screenW)
    (hr : reaches s (latch s y) .piv x = true) (hsel : pixSel (latch s y) = false) :
    let w := memRead s .txt (textAddr x y)
    Sparse.find? (lineCaches s y).txt (textAddr x y) = some (decodeTextCell w) ∧
      Sparse.find? (lineCaches s y).chr (w.toNat % 256) = some (elementPens s.par s.chr (w.toNat % 256)) := by
  intro w
  obtain ⟨htxt, hchr⟩ := lineCaches_establishes
    (P := fun c => (Sparse.find? c.txt (textAddr x y)).isSome ∧ (Sparse.find? c.chr (w.toNat % 256)).isSome)
    (Layer.mem_all .piv) hx hr (touch_text_clean hsel s y · x) fun l c x' => by
      obtain ⟨-, -, -, htxt, -⟩ := touch_keeps_clean s (latch s y) y l c x' (textAddr x y)
      obtain ⟨hchr, -, -, -, -⟩ := touch_keeps_clean s (latch s y) y l c x' (w.toNat % 256)
      exact And.imp htxt hchr
  have hc := lineCaches_coherent y hs
  exact ⟨Sparse.find?_eq_of_isSome (fun k => decodeTextCell (readHalf s.txt k)) (fun e he => (hc.txt e he).2) htxt,
    Sparse.find?_eq_of_isSome (elementPens s.par s.chr) (fun e he => (hc.chr e he).2) hchr⟩

/-- A pixel-layer cell that a LINE samples, and its pivot element, are clean after it, with the decode of the RAM. -/
theorem lineCaches_pix {s : State} {y x : Nat} (hs : s.CacheCoherent) (hx : x < s.par.screenW)
    (hr : reaches s (latch s y) .piv x = true) (hsel : pixSel (latch s y) = true) :
    let so := pixYOff s.ctrl1
    Sparse.find? (lineCaches s y).pix (pixAttrAt so x y) =
        some (decodePixPal (memRead s .txt (pixAttrAt so x y))) ∧
      Sparse.find? (lineCaches s y).piv (pixElement so x y) =
        some (elementPens s.par s.piv (pixElement so x y)) := by
  intro so
  obtain ⟨hpix, hpiv⟩ := lineCaches_establishes
    (P := fun c => (Sparse.find? c.pix (pixAttrAt so x y)).isSome ∧ (Sparse.find? c.piv (pixElement so x y)).isSome)
    (Layer.mem_all .piv) hx hr (touch_pix_clean hsel s y · x) fun l c x' => by
      obtain ⟨-, -, -, -, hpix⟩ := touch_keeps_clean s (latch s y) y l c x' (pixAttrAt so x y)
      obtain ⟨-, hpiv, -, -, -⟩ := touch_keeps_clean s (latch s y) y l c x' (pixElement so x y)
      exact And.imp hpix hpiv
  have hc := lineCaches_coherent y hs
  exact ⟨Sparse.find?_eq_of_isSome (fun k => decodePixPal (readHalf s.txt k)) (fun e he => (hc.pix e he).2) hpix,
    Sparse.find?_eq_of_isSome (elementPens s.par s.piv) (fun e he => (hc.piv e he).2) hpiv⟩

/-- Settles O53: a LINE below `P_VIS_H` leaves the caches `lineCaches`, one lemma for each layer kind that has
a cache. -/
theorem lineDecodesTheElementsItSamples : Obligations.LineDecodesTheElementsItSamples := by
  intro s t y x hs h hy hx
  rw [exec_line_of_lt s hy] at h
  cases h
  exact ⟨fun _ hr => lineCaches_pf hs hx hr, lineCaches_text hs hx, lineCaches_pix hs hx⟩

end Sys2Proof.Machine
end

section
/-! SUPPORT. The tilemaps of 42_tilemap_address_gen.md: the playfield grid (R181, R182), its map coordinates (R185) and
the pixels of the playfields (R186..R188), of the text layer (R191) and of the pixel layer (R192..R195). -/

namespace Sys2Proof.Machine

/-! ### The playfield grid -/

/-- In either mode the cells are numbered tilemap by tilemap and row by row, two halfwords a cell (R181, R182). -/
theorem grid_modes (p : Params) :
    (tilemaps p = 8 ∧ mapCols p = 32 ∧ ∀ k col row, cellAddr p k col row = 2 * (k * 1024 + row * 32 + col)) ∨
    (tilemaps p = 4 ∧ mapCols p = 64 ∧ ∀ k col row, cellAddr p k col row = 2 * (k * 2048 + row * 64 + col)) := by
  simp only [tilemaps, mapCols, cellAddr_eq]
  cases p.extended with
  | false => exact .inl ⟨rfl, rfl, fun _ _ _ => by simp only [Bool.false_eq_true, if_false]; omega⟩
  | true => exact .inr ⟨rfl, rfl, fun _ _ _ => by simp only [if_true]; omega⟩

section
variable {p : Params} {k col row k' col' row' : Nat}

theorem cellAddr_succ_lt (hk : k < tilemaps p) (hcol : col < mapCols p) (hrow : row < mapRows) :
    cellAddr p k col row + 1 < 0x4000 := by
  rw [mapRows] at hrow
  obtain ⟨hn, hc, haddr⟩ | ⟨hn, hc, haddr⟩ := grid_modes p <;> rw [haddr] <;> omega

theorem cellAddr_inj (hcol : col < mapCols p) (hrow : row < mapRows) (hcol' : col' < mapCols p)
    (hrow' : row' < mapRows) (h : cellAddr p k col row = cellAddr p k' col' row') :
    k = k' ∧ col = col' ∧ row = row' := by
  rw [mapRows] at hrow hrow'
  obtain ⟨-, hc, haddr⟩ | ⟨-, hc, haddr⟩ := grid_modes p <;> rw [haddr, haddr] at h <;> omega

end

/-- Every pair of halfwords below 0x4000 is a cell: its place is read off the digits of its number. -/
theorem exists_cellAddr_eq (p : Params) {a : Nat} (ha : a < 0x2000) :
    ∃ k col row, k < tilemaps p ∧ col < mapCols p ∧ row < mapRows ∧ cellAddr p k col row = 2 * a := by
  obtain ⟨hn, hc, haddr⟩ | ⟨hn, hc, haddr⟩ := grid_modes p
  · refine ⟨a / 1024, a % 32, a / 32 % 32, ?_⟩
    rw [hn, hc, haddr, mapRows]
    omega
  · refine ⟨a / 2048, a % 64, a / 64 % 32, ?_⟩
    rw [hn, hc, haddr, mapRows]
    omega

/-- Settles O29: the cells are bounded, distinct, and cover the area, one lemma for each. -/
theorem playfieldCellsFillTheGridArea : Obligations.PlayfieldCellsFillTheGridArea := fun p =>
  ⟨fun _ _ _ => cellAddr_succ_lt, fun _ _ _ _ _ _ _ hcol hrow _ hcol' hrow' => cellAddr_inj hcol hrow hcol' hrow',
    fun _ => exists_cellAddr_eq p⟩

/-! ### Map coordinates -/

theorem mapW_eq (p : Params) : (mapW p : Int) = if p.extended then 1024 else 512 := by
  rw [mapW, mapCols]
  split <;> rfl

theorem mapX_eq (s : State) (n : LineSnap) (p : Fin 4) (x : Nat) :
    (mapX s n p x : Int) = (pfXBase s.ctrl0 p + (n.xscroll p).toInt + (x * stepX (n.zoom p)) / 256) %
      (if s.par.extended then 1024 else 512) := by
  rw [mapX, mapW_eq]
  exact Int.toNat_of_nonneg (Int.emod_nonneg _ (by split <;> decide))

theorem mapY_eq (s : State) (n : LineSnap) (p : Fin 4) (y : Nat) :
    (mapY s n p y : Int) = (pfYBase s.ctrl0 p + (n.yscroll p).toInt + (y * stepY (n.zoom p)) / 256) % 512 :=
  Int.toNat_of_nonneg (Int.emod_nonneg _ (by decide))

/-- A zoom byte is signed, so a step is within half of one map pixel of one map pixel (R185). -/
theorem step_bounds (b : Byte) : 0x80 ≤ 0x100 + b.toInt ∧ 0x100 + b.toInt ≤ 0x17F := by
  have hlo := b.le_toInt
  have hhi := b.toInt_lt
  omega

theorem stepX_zero : stepX 0#16 = 0x100 := rfl

theorem stepY_zero : stepY 0#16 = 0x100 := rfl

/-- At the step of a zoom byte of 0 one screen pixel is one map pixel (R185). -/
theorem unzoomed (x : Nat) : ((x : Int) * 0x100) / 256 = x := Int.mul_ediv_cancel _ (by decide)

/-- Settles O30: the two coordinates as the model computes them, with the step read from the zoom word. -/
theorem mapCoordinateScrollsZoomsAndWraps : Obligations.MapCoordinateScrollsZoomsAndWraps := by
  intro s n p x y sx sy stepx stepy
  refine ⟨mapX_eq s n p x, mapY_eq s n p y, ?bounds, fun hzoom => ⟨?unzoomedX, ?unzoomedY⟩⟩
  case bounds =>
    obtain ⟨hxlo, hxhi⟩ := step_bounds ((n.zoom p).extractLsb' 0 8)
    exact ⟨hxlo, hxhi, step_bounds ((n.zoom p).extractLsb' 8 8)⟩
  case unzoomedX =>
    rw [mapX_eq, hzoom, stepX_zero, unzoomed]
    rfl
  case unzoomedY =>
    rw [mapY_eq, hzoom, stepY_zero, unzoomed]
    rfl

/-! ### Pens and indices -/

/-- The pen mask is the selected planes whose palette bit is clear, above four set bits (R186). -/
theorem penMask_eq_append (tw : Half) :
    penMask tw = (tw.extractLsb' 10 2 &&& (3#2 ^^^ tw.extractLsb' 0 2)) ++ 0xF#4 := by
  rw [BitVec.append_def, BitVec.shiftLeftZeroExtend_eq]
  rfl

theorem penMask_getLsbD_low (tw : Half) {i : Nat} (h : i < 4) : (penMask tw).getLsbD i = true := by
  have hones : ∀ i < 4, (0xF#4).getLsbD i = true := by decide
  rw [penMask_eq_append, BitVec.getLsbD_append, if_pos h, hones i h]

/-- Bit `4 + j` of the pen mask: plane `j` is selected and bit `j` of the palette code is clear. -/
theorem penMask_getLsbD_plane (tw : Half) {j : Nat} (h : j < 2) :
    (penMask tw).getLsbD (4 + j) = (tw.getLsbD (10 + j) && !tw.getLsbD j) := by
  have hones : ∀ j < 2, (3#2).getLsbD j = true := by decide
  rw [penMask_eq_append, BitVec.getLsbD_append, if_neg (by omega), Nat.add_sub_cancel_left, BitVec.getLsbD_and,
    BitVec.getLsbD_xor, hones j h, BitVec.getLsbD_extractLsb', BitVec.getLsbD_extractLsb']
  simp [h]

/-- Settles O31: the low bits, and planes 0 and 1. -/
theorem penMaskClearsPaletteBits : Obligations.PenMaskClearsPaletteBits := fun tw =>
  ⟨fun _ => penMask_getLsbD_low tw, penMask_getLsbD_plane tw (j := 0) (by decide),
    penMask_getLsbD_plane tw (j := 1) (by decide)⟩

/-- A palette code four bits up in an index is the code times 16. -/
theorem toNat_palField {n : Nat} (pal : BitVec n) (hn : n ≤ 12) : (pal.setWidth 16 <<< 4).toNat = pal.toNat * 16 := by
  have hpal : pal.toNat < 2 ^ 12 := pal.isLt.trans_le (Nat.pow_le_pow_right (by decide) hn)
  rw [BitVec.toNat_shiftLeft, BitVec.toNat_setWidth_of_le (by omega), Nat.shiftLeft_eq, Nat.mod_eq_of_lt (by omega)]

/-- The palette index puts the palette code four bits above the pen's low bit (R187, R191, R195). -/
theorem toNat_palIndex {m n : Nat} (pal : BitVec n) (pen : BitVec m) (hn : n ≤ 12) (hm : m ≤ 16) :
    ((pal.setWidth 16 <<< 4) ||| pen.setWidth 16 : Half).toNat = pal.toNat * 16 ||| pen.toNat := by
  rw [BitVec.toNat_or, toNat_palField pal hn, BitVec.toNat_setWidth_of_le hm]

/-- A 4-bit pen lies below the palette code, so the index is their sum (R191, R195). -/
theorem toNat_palIndex_of_nibble (pal : BitVec 6) (pen : BitVec 4) :
    ((pal.setWidth 16 <<< 4) ||| pen.setWidth 16 : Half).toNat = pal.toNat * 16 + pen.toNat := by
  rw [toNat_palIndex pal pen (by decide) (by decide), Nat.mul_comm]
  exact (Nat.two_pow_add_eq_or_of_lt (i := 4) pen.isLt pal.toNat).symm

/-- The pen mask clears every pen bit that overlaps a set bit of the palette code (R187). -/
theorem palette_and_maskedPen (tw : Half) (pen : BitVec 6) :
    ((tw.extractLsb' 0 9).setWidth 16 <<< 4) &&& (pen &&& penMask tw).setWidth 16 = 0#16 := by
  apply BitVec.eq_of_getLsbD_eq
  intro i hi
  rw [BitVec.getLsbD_and, BitVec.getLsbD_shiftLeft, BitVec.getLsbD_setWidth, BitVec.getLsbD_setWidth,
    BitVec.getLsbD_and]
  rcases lt_or_ge i 4 with hlow | hhigh
  · simp [hlow]
  · obtain ⟨j, rfl⟩ := Nat.exists_eq_add_of_le hhigh
    rcases lt_or_ge j 2 with hj | hj
    · rw [penMask_getLsbD_plane tw hj]
      cases htw : tw.getLsbD j <;> simp [htw]
    · rw [BitVec.getLsbD_of_ge pen (4 + j) (by omega)]
      simp

/-- OR and addition give a playfield pixel the same index (R187). -/
theorem palette_or_maskedPen (tw : Half) (pen : BitVec 6) :
    (tw.extractLsb' 0 9).toNat * 16 ||| (pen &&& penMask tw).toNat =
      (tw.extractLsb' 0 9).toNat * 16 + (pen &&& penMask tw).toNat := by
  have hdisjoint := palette_and_maskedPen tw pen
  rw [← toNat_palIndex _ _ (by decide) (by decide), ← BitVec.add_eq_or_of_and_eq_zero _ _ hdisjoint,
    BitVec.toNat_add_of_and_eq_zero hdisjoint, toNat_palField _ (by decide), BitVec.toNat_setWidth_of_le (by decide)]

/-! ### Pixels -/

/-- Settles O32: the model's pixel is the masked pen of the mirrored coordinates under the cell's palette. -/
theorem playfieldPixelPutsThePaletteAboveThePen : Obligations.PlayfieldPixelPutsThePaletteAboveThePen := by
  intro s k mx my a tw ti px py pen
  have hindex : (pfPixel s k mx my).index.toNat = (tw.extractLsb' 0 9).toNat * 16 ||| pen.toNat :=
    toNat_palIndex (tw.extractLsb' 0 9) pen (by decide) (by decide)
  exact ⟨bne_iff_ne, rfl, hindex, hindex.trans (palette_or_maskedPen tw _)⟩

/-- Settles O33: the pen of the cell's own tile and flips, and the index of a 4-bit pen. -/
theorem textPixelDecodesItsCell : Obligations.TextPixelDecodesItsCell := fun s x y =>
  ⟨bne_iff_ne, toNat_palIndex_of_nibble (decodeTextCell (memRead s .txt (textAddr x y))).pal _, rfl⟩

/-- Settles O34: the scroll offset is the low 9 bits of halfword 5 of bank 1, and both addresses are in range. -/
theorem pixelLayerTakesItsPaletteFromTextRam : Obligations.PixelLayerTakesItsPaletteFromTextRam := by
  intro s x y so
  have hso : so = pixYOff s.ctrl1 := (pixYOff_eq s.ctrl1).symm
  rw [hso]
  exact ⟨bne_iff_ne, toNat_palIndex_of_nibble _ _, rfl, pixAttrAt_lt _ x y, pixElement_lt _ x y⟩

end Sys2Proof.Machine
end

section
/-! SUPPORT. The sprite rasterizer of 43_sprite_rasterizer.md: the scanned list (R211, R212), the covered box and its
texels (R213, R214, R215), the sprite index (R219), and what FRAME leaves in the buffers and the usage masks (R210, R217,
R220, R223). -/

namespace Sys2Proof.Machine

/-! ### The list -/

/-- In a strictly rising list `takeWhile` keeps the elements up to which every element passes. -/
theorem mem_takeWhile_of_pairwise_lt {l : List Nat} (hl : l.Pairwise (· < ·)) (p : Nat → Bool) (a : Nat) :
    a ∈ l.takeWhile p ↔ a ∈ l ∧ ∀ b ∈ l, b ≤ a → p b = true := by
  induction l with
  | nil => simp
  | cons c l ih =>
    obtain ⟨hc, hl⟩ := List.pairwise_cons.1 hl
    by_cases hp : p c = true
    · have first : ∀ b ∈ l, ¬ b ≤ c := fun b hb => Nat.not_le.2 (hc b hb)
      rw [List.takeWhile_cons_of_pos hp, List.mem_cons, ih hl, List.mem_cons, List.forall_mem_cons]
      constructor
      · rintro (rfl | ⟨ha, h⟩)
        · exact ⟨.inl rfl, fun _ => hp, fun b hb hba => absurd hba (first b hb)⟩
        · exact ⟨.inr ha, fun _ => hp, h⟩
      · rintro ⟨rfl | ha, -, h⟩
        · exact .inl rfl
        · exact .inr ⟨ha, h⟩
    · rw [List.takeWhile_cons_of_neg hp]
      refine iff_of_false List.not_mem_nil fun ⟨ha, h⟩ => hp (h c List.mem_cons_self ?_)
      rcases List.mem_cons.1 ha with rfl | ha
      · exact le_rfl
      · exact (hc a ha).le

/-- The scan reads an entry when neither it nor an entry before it ends the list (R211). -/
theorem mem_scanned {spr : Memory} {e : Nat} :
    e ∈ scanned spr ↔ e < entryCount ∧ ∀ e' ≤ e, entryEnd spr e' = false := by
  rw [scanned, mem_takeWhile_of_pairwise_lt List.pairwise_lt_range, List.mem_range]
  refine and_congr_right fun he => forall_congr' fun e' => ?_
  rw [List.mem_range, Bool.not_eq_true']
  exact ⟨fun h hle => h (hle.trans_lt he) hle, fun h _ => h⟩

theorem entryKept_iff {spr : Memory} {e : Nat} :
    entryKept spr e = true ↔ entrySkip spr e = false ∧ entryXScale spr e ≠ 0#8 ∧ entryYScale spr e ≠ 0#8 := by
  simp [entryKept, and_assoc]

theorem scanned_pairwise_lt (spr : Memory) : (scanned spr).Pairwise (· < ·) :=
  List.pairwise_lt_range.sublist (List.takeWhile_sublist _)

/-- Settles O36: the entries listed are the scanned ones that are kept. -/
theorem spriteListKeepsTheScannedEntries : Obligations.SpriteListKeepsTheScannedEntries := by
  intro spr
  refine ⟨(scanned spr).filter (entryKept spr), rfl, (scanned_pairwise_lt spr).filter _, fun e => ?_⟩
  rw [List.mem_filter, mem_scanned, entryKept_iff, and_assoc]
  rfl

/-! ### The covered box -/

theorem covers_iff {pos : Int} {sc i : Nat} :
    covers pos sc i = true ↔ pos ≤ (i : Int) * 256 ∧ (i : Int) * 256 < pos + 32 * sc := by
  simp [covers]

theorem Descriptor.covers_iff {d : Descriptor} {r c : Nat} :
    d.covers r c = true ↔ Machine.covers d.x d.sx c = true ∧ Machine.covers d.y d.sy r = true := by
  simp [Descriptor.covers]

/-- At scale 0x80 a span that starts on a pixel covers that pixel and the 15 after it (R213). -/
theorem covers_unscaled {pos : Int} {sc i i0 : Nat} (hpos : pos = (i0 : Int) * 256) (hsc : sc = 0x80) :
    covers pos sc i = true ↔ i0 ≤ i ∧ i < i0 + 16 := by
  rw [Machine.covers_iff]
  omega

/-- A covered pixel lies in one of the 16 texel steps of `2*sc` of its span (R214). -/
theorem texelStep_bounds {pos : Int} {sc i : Nat} (h : covers pos sc i = true) :
    0 ≤ ((i : Int) * 256 - pos) / (2 * sc) ∧ ((i : Int) * 256 - pos) / (2 * sc) ≤ 15 := by
  obtain ⟨hlo, hhi⟩ := Machine.covers_iff.1 h
  have hlt : ((i : Int) * 256 - pos) / (2 * sc) < 16 := Int.ediv_lt_of_lt_mul (by omega) (by omega)
  exact ⟨Int.ediv_nonneg (by omega) (by omega), by omega⟩

/-- The texel coordinate of a covered pixel lies on the tile, and is the texel step or its mirror image (R214). -/
theorem texel_of_covers {pos : Int} {sc i : Nat} (flip : Bool) (h : covers pos sc i = true) :
    texel pos sc flip i ≤ 15 ∧
      (texel pos sc flip i : Int) =
        if flip then 15 - ((i : Int) * 256 - pos) / (2 * sc) else ((i : Int) * 256 - pos) / (2 * sc) := by
  obtain ⟨hlo, hhi⟩ := texelStep_bounds h
  rw [texel]
  cases flip
  · rw [if_neg (by decide), if_neg (by decide)]
    omega
  · rw [if_pos rfl, if_pos rfl]
    omega

/-- Settles O38, span by span: columns by `x` and `sx`, rows by `y` and `sy`. -/
theorem coveredPixelTakesATexelOfTheTile : Obligations.CoveredPixelTakesATexelOfTheTile := by
  intro p d r c
  refine ⟨?box, fun _ _ hcovers => ?texel, fun c0 r0 hx hsx hy hsy => ?unscaled⟩
  case box => rw [Descriptor.covers_iff, Machine.covers_iff, Machine.covers_iff, and_assoc]
  case texel =>
    obtain ⟨hcol, hrow⟩ := Descriptor.covers_iff.1 hcovers
    obtain ⟨hu, hu_eq⟩ := texel_of_covers d.flipX hcol
    obtain ⟨hv, hv_eq⟩ := texel_of_covers d.flipY hrow
    exact ⟨_, _, hu, hv, hu_eq, hv_eq, rfl⟩
  case unscaled => rw [Descriptor.covers_iff, covers_unscaled hx hsx, covers_unscaled hy hsy]

/-! ### The sprite index -/

theorem toNat_sprIndex (color : BitVec 8) (pen : BitVec 6) :
    (sprIndex color pen).toNat = color.toNat * 16 ||| pen.toNat :=
  toNat_palIndex color pen (by decide) (by decide)

theorem sprIndex_ne_zero (color : BitVec 8) {pen : BitVec 6} (h : pen ≠ 0#6) : sprIndex color pen ≠ 0#16 := by
  intro h0
  have hor : color.toNat * 16 ||| pen.toNat = 0 := by rw [← toNat_sprIndex, h0]; rfl
  exact h (BitVec.eq_of_toNat_eq (Nat.or_eq_zero_iff.1 hor).2)

/-- Settles O39: both fields lie below bit 12. -/
theorem spriteIndexIsNonzero : Obligations.SpriteIndexIsNonzero := by
  intro color pen
  refine ⟨toNat_sprIndex color pen, ?_, sprIndex_ne_zero color⟩
  rw [toNat_sprIndex]
  exact Nat.or_lt_two_pow (n := 12) (by omega) (by omega)

/-! ### FRAME -/

/-- Settles O40: FRAME stores what `buildList` and `drawList` give for the sprite RAM and the parameters, which it leaves
as they are. -/
theorem frameRebuildsFromSpriteRamAlone : Obligations.FrameRebuildsFromSpriteRamAlone := by
  intro s
  refine ⟨_, exec_frame s, ?frame, ?shown, ?again, fun s' hspr hpar => ⟨_, exec_frame s', ?same⟩⟩
  case frame | shown => dsimp only
  case again => exact exec_frame _
  case same =>
    rw [hspr, hpar]
    exact ⟨rfl, rfl, rfl⟩

/-! ### Which sprite wins a pixel -/

/-- The descriptors of a list that paint a pixel, in list order. -/
def painters (p : Params) (g y x : Nat) (l : List Descriptor) : List Descriptor := l.filter (Descriptor.paints p g y x)

/-- The one of a pixel's painters that the overdraw rule leaves there (R217). -/
def winner (o : Overdraw) (ds : List Descriptor) : Option Descriptor :=
  match o with
  | .laterWins => ds.getLast?
  | .earlierWins => ds.head?

/-- What a pixel holds that a descriptor has won, or none has (R217, R219). -/
def wonIndex (p : Params) (y x : Nat) : Option Descriptor → Half
  | some d => sprIndex d.color (sprPen p d y x)
  | none => 0#16

/-- The painter writes the pixel when the list is drawn, so sets its usage bit: each painter under LATER_WINS, the first
one under EARLIER_WINS, and each one where the rule counts what is covered (R41, R220, log entry 11). -/
def CountsIn (p : Params) (g y x : Nat) (l : List Descriptor) (d : Descriptor) : Prop :=
  p.usageRule = .covered ∨ p.sprOverdraw = .laterWins ∨ (painters p g y x l).head? = some d

theorem winner_eq_none_iff {o : Overdraw} {ds : List Descriptor} : winner o ds = none ↔ ds = [] := by
  cases o with
  | laterWins => exact List.getLast?_eq_none_iff
  | earlierWins => exact List.head?_eq_none_iff

theorem mem_of_winner {o : Overdraw} {ds : List Descriptor} {d : Descriptor} (h : winner o ds = some d) : d ∈ ds := by
  cases o with
  | laterWins => exact List.mem_of_getLast? h
  | earlierWins => exact List.mem_of_head? h

theorem drawList_concat (p : Params) (l : List Descriptor) (d : Descriptor) :
    drawList p (l ++ [d]) = raster p (drawList p l) d := List.foldl_concat _ _ _ _

section
variable {p : Params} {g y x b : Nat} {l : List Descriptor} {d : Descriptor}

theorem mem_painters : d ∈ painters p g y x l ↔ d ∈ l ∧ d.paints p g y x = true := List.mem_filter

theorem painters_concat_of_paints (h : d.paints p g y x = true) :
    painters p g y x (l ++ [d]) = painters p g y x l ++ [d] := by
  rw [painters, List.filter_append, List.filter_cons_of_pos h]
  rfl

theorem painters_concat_of_not_paints (h : ¬ d.paints p g y x = true) :
    painters p g y x (l ++ [d]) = painters p g y x l := by
  rw [painters, List.filter_append, List.filter_cons_of_neg h]
  exact List.append_nil _

theorem sprPen_ne_zero_of_paints (h : d.paints p g y x = true) : sprPen p d y x ≠ 0#6 := by
  rw [Descriptor.paints, Bool.and_eq_true, bne_iff_ne] at h
  exact h.2

/-- A pixel is 0 exactly where no descriptor paints it, since every index painted is nonzero (R219). -/
theorem wonIndex_winner_eq_zero_iff :
    wonIndex p y x (winner p.sprOverdraw (painters p g y x l)) = 0#16 ↔ painters p g y x l = [] := by
  rw [← winner_eq_none_iff (o := p.sprOverdraw)]
  cases hw : winner p.sprOverdraw (painters p g y x l) with
  | none => exact iff_of_true rfl rfl
  | some d =>
    have hpen := sprPen_ne_zero_of_paints (mem_painters.1 (mem_of_winner hw)).2
    exact iff_of_false (sprIndex_ne_zero d.color hpen) (Option.some_ne_none d)

/-- One more painter of a pixel changes what it holds as `paintOver` does (R217). -/
theorem wonIndex_winner_concat :
    wonIndex p y x (winner p.sprOverdraw (painters p g y x l ++ [d])) =
      paintOver p d y x (wonIndex p y x (winner p.sprOverdraw (painters p g y x l))) := by
  simp only [paintOver, overwrites_iff, wonIndex_winner_eq_zero_iff]
  cases ho : p.sprOverdraw with
  | laterWins => simp [winner, wonIndex]
  | earlierWins => cases painters p g y x l <;> simp [winner, wonIndex]

/-- What a pixel of the buffer holds after a list is drawn (R217). -/
theorem drawList_sprAt (hw : p.screenW ≤ 512) (hy : y < 256) (hx : x < p.screenW) (l : List Descriptor) :
    sprAt (drawList p l).buf g y x = wonIndex p y x (winner p.sprOverdraw (painters p g y x l)) := by
  induction l using List.reverseRecOn with
  | nil => exact (wonIndex_winner_eq_zero_iff.2 rfl).symm
  | append_singleton l d ih =>
    rw [drawList_concat, raster_sprAt _ hw hy hx, ih]
    split
    case isTrue h => rw [painters_concat_of_paints h, wonIndex_winner_concat]
    case isFalse h => rw [painters_concat_of_not_paints h]

/-! ### Which sprites set a usage bit -/

/-- The usage bit of a descriptor is that of its sub-band (R220, R221). -/
theorem useBit_getLsbD (hb : b < 8) : d.useBit.getLsbD b = true ↔ d.prio.toNat / 2 = b := by
  have hsub : (d.prio >>> 1).toNat = d.prio.toNat / 2 := by
    rw [BitVec.toNat_ushiftRight, Nat.shiftRight_eq_div_pow, pow_one]
  rw [Descriptor.useBit, hsub, BitVec.getLsbD_shiftLeft, BitVec.getLsbD_one]
  simp only [Bool.and_eq_true, Bool.not_eq_true', decide_eq_true_eq, decide_eq_false_iff_not]
  omega

/-- What drawing a descriptor does to one bit of a usage mask (R41, R217, R220). -/
theorem raster_usageAt_getLsbD (cv : Canvas) (hw : p.screenW ≤ 512) (hy : y < 256) (hb : b < 8) :
    (usageAt (raster p cv d).use g y).getLsbD b = true ↔
      (usageAt cv.use g y).getLsbD b = true ∨ d.prio.toNat / 2 = b ∧
        ∃ x < p.screenW, d.paints p g y x = true ∧ countsUse p (sprAt cv.buf g y x) = true := by
  obtain ⟨hset, hkeep⟩ := raster_usageAt (d := d) (g := g) cv hw hy
  by_cases hcounts : ∃ x < p.screenW, d.paints p g y x = true ∧ countsUse p (sprAt cv.buf g y x) = true
  · rw [hset hcounts, BitVec.getLsbD_or, Bool.or_eq_true, useBit_getLsbD hb, and_iff_left hcounts]
  · rw [hkeep hcounts, iff_false_intro hcounts, and_false, or_false]

/-- After a list is drawn a further painter of a pixel counts there when it overwrites, or finds no painter before it. -/
theorem countsUse_drawList_iff (hw : p.screenW ≤ 512) (hy : y < 256) (hx : x < p.screenW) :
    countsUse p (sprAt (drawList p l).buf g y x) = true ↔
      p.usageRule = .covered ∨ p.sprOverdraw = .laterWins ∨ painters p g y x l = [] := by
  rw [countsUse_iff, drawList_sprAt hw hy hx, wonIndex_winner_eq_zero_iff]

theorem countsIn_of_all (h : p.usageRule = .covered ∨ p.sprOverdraw = .laterWins) : CountsIn p g y x l d :=
  h.elim .inl fun h => .inr (.inl h)

theorem countsIn_iff_first (h : ¬ (p.usageRule = .covered ∨ p.sprOverdraw = .laterWins)) :
    CountsIn p g y x l d ↔ (painters p g y x l).head? = some d := by
  rw [CountsIn, ← or_assoc, or_iff_right h]

/-- Where the first painter alone counts, the descriptors of the list that count are it. -/
theorem exists_countsIn_iff_first (S : Descriptor → Prop)
    (h : ¬ (p.usageRule = .covered ∨ p.sprOverdraw = .laterWins)) :
    (∃ d ∈ l, S d ∧ d.paints p g y x = true ∧ CountsIn p g y x l d) ↔ ∃ d ∈ (painters p g y x l).head?, S d := by
  simp only [countsIn_iff_first h]
  constructor
  · rintro ⟨d, -, hS, -, hd⟩
    exact ⟨d, hd, hS⟩
  · rintro ⟨d, hd, hS⟩
    obtain ⟨hl, hpaints⟩ := mem_painters.1 (List.mem_of_head? hd)
    exact ⟨d, hl, hS, hpaints, hd⟩

/-- Of a list with one more descriptor, those that count at a pixel are those that count already, and the new one when it
overwrites or is the first painter. -/
theorem exists_countsIn_concat (S : Descriptor → Prop) :
    (∃ d' ∈ l ++ [d], S d' ∧ d'.paints p g y x = true ∧ CountsIn p g y x (l ++ [d]) d') ↔
      (∃ d' ∈ l, S d' ∧ d'.paints p g y x = true ∧ CountsIn p g y x l d') ∨
        S d ∧ d.paints p g y x = true ∧
          (p.usageRule = .covered ∨ p.sprOverdraw = .laterWins ∨ painters p g y x l = []) := by
  by_cases hall : p.usageRule = .covered ∨ p.sprOverdraw = .laterWins
  · simp [countsIn_of_all hall, ← or_assoc, hall, or_and_right, exists_or]
  · rw [exists_countsIn_iff_first S hall, exists_countsIn_iff_first S hall, ← or_assoc, or_iff_right hall]
    by_cases hpaints : d.paints p g y x = true
    · rw [painters_concat_of_paints hpaints]
      cases painters p g y x l with
      | nil => simp [hpaints]
      | cons a ds => simp
    · simp [painters_concat_of_not_paints hpaints, hpaints]

/-- Which bits of a usage mask are set after a list is drawn (R41, R217, R220). -/
theorem drawList_usageAt_getLsbD (hw : p.screenW ≤ 512) (hy : y < 256) (hb : b < 8) (l : List Descriptor) :
    (usageAt (drawList p l).use g y).getLsbD b = true ↔
      ∃ x < p.screenW, ∃ d ∈ l, d.prio.toNat / 2 = b ∧ d.paints p g y x = true ∧ CountsIn p g y x l d := by
  induction l using List.reverseRecOn with
  | nil => exact iff_of_false (by simp [drawList, usageAt, Sparse.get]) (by simp)
  | append_singleton l d ih =>
    rw [drawList_concat, raster_usageAt_getLsbD _ hw hy hb, ih]
    calc
      _ ↔ ∃ x < p.screenW, (∃ d' ∈ l, d'.prio.toNat / 2 = b ∧ d'.paints p g y x = true ∧ CountsIn p g y x l d') ∨
          d.prio.toNat / 2 = b ∧ d.paints p g y x = true ∧ countsUse p (sprAt (drawList p l).buf g y x) = true := by
        simp only [and_left_comm (b := d.prio.toNat / 2 = b), and_or_left, exists_or, exists_and_left]
      _ ↔ _ := exists_congr fun x => and_congr_right fun hx => by
        rw [countsUse_drawList_iff hw hy hx, exists_countsIn_concat fun d => d.prio.toNat / 2 = b]

end

/-- FRAME completes, and draws the list that it displays (R210). -/
theorem exec_frame_draws_shown (s : State) : ∃ t, exec .frame s = .next t ∧
    t.sprbuf = (drawList s.par t.shown).buf ∧ t.usage = (drawList s.par t.shown).use := by
  refine ⟨_, exec_frame s, ?_⟩
  dsimp only
  exact ⟨rfl, rfl⟩

/-- Settles O41: pixels by `drawList_sprAt`, usage bits by `drawList_usageAt_getLsbD`. -/
theorem framePixelIsTheWinningSprite : Obligations.FramePixelIsTheWinningSprite := by
  intro s g y hw hy
  obtain ⟨t, ht, hbuf, huse⟩ := exec_frame_draws_shown s
  refine ⟨t, ht, fun x hx => ?pixel, fun b hb => ?usage⟩
  case pixel =>
    rw [hbuf]
    exact drawList_sprAt hw hy hx t.shown
  case usage =>
    rw [huse, drawList_usageAt_getLsbD hw hy hb]
    constructor
    · rintro ⟨x, hx, d, hd, hprio, hpaints, hcounts⟩
      exact ⟨d, hd, hprio, x, hx, hpaints, hcounts⟩
    · rintro ⟨d, hd, hprio, x, hx, hpaints, hcounts⟩
      exact ⟨x, hx, d, hd, hprio, hpaints, hcounts⟩

end Sys2Proof.Machine
end

section
/-! SUPPORT. The line compositor of 44_line_compositor_merge.md: the latch (R241), the clip planes (R242..R244), the
layer loop of a LINE (R240), mosaic (R250), the background (R251) and the trace byte (R252). -/

namespace Sys2Proof.Machine

/-! ### The latch -/

/-- The line control of row `y` is read from its block of line RAM (R37). -/
theorem lineWord_eq (s : State) (y off : Nat) : lineWord s y off = memRead s .lin (y * 128 + off) := rfl

/-- Settles O47: the latch takes each field from its own offset of the block. -/
theorem latchReadsTheBlockOfTheLine : Obligations.LatchReadsTheBlockOfTheLine := fun s y =>
  ⟨fun k => ⟨lineWord_eq s y k.val, lineWord_eq s y (0x09 + k.val), lineWord_eq s y (0x0D + k.val),
      lineWord_eq s y (0x11 + k.val), lineWord_eq s y (0x15 + k.val), lineWord_eq s y (0x19 + k.val)⟩,
    lineWord_eq s y 0x04, congrArg (·.extractLsb' 0 8) (lineWord_eq s y 0x05), lineWord_eq s y 0x06,
    lineWord_eq s y 0x07, lineWord_eq s y 0x08, rfl, rfl⟩

/-- The mosaic factor of a line, from the low four bits of its mosaic word (R250). -/
theorem mosaicFactor_latch (s : State) (y : Nat) :
    mosaicFactor (latch s y) = (memRead s .lin (y * 128 + 6)).toNat % 16 + 1 := by
  rw [mosaicFactor, toNat_extractLsb', pow_zero, Nat.div_one]
  rfl

/-! ### Clip planes -/

/-- Bit `k` of the enable field of a mix word (R134). -/
theorem mixClipEn_getLsbD (m : Half) (k : Fin 4) : (mixClipEn m).getLsbD k.val = m.getLsbD (8 + k.val) := by
  simp [mixClipEn]

/-- The invert mode inverts the sense of each invert bit (R244). -/
theorem clipInvert_getLsbD (m : Half) (k : Fin 4) :
    (clipInvert m).getLsbD k.val = (m.getLsbD (4 + k.val) != m.getLsbD 12) := by
  have hmode : ∀ (b : Bool) (k : Fin 4), (if b then 0xF#4 else 0x0#4).getLsbD k.val = b := by decide
  rw [clipInvert, BitVec.getLsbD_xor, hmode, mixClipInv, BitVec.getLsbD_extractLsb']
  simp [mixInvMode]

theorem mem_clipPlanes {m : Half} {k : Fin 4} : k ∈ clipPlanes m ↔ m.getLsbD (8 + k.val) = true := by
  have hall : ∀ k : Fin 4, k ∈ ([0, 1, 2, 3] : List (Fin 4)) := by decide
  rw [clipPlanes, List.mem_filter, mixClipEn_getLsbD, and_iff_right (hall k)]

/-- A mix word whose enable field is 0 enables no plane. -/
theorem mixClipEn_eq_zero_iff (m : Half) : mixClipEn m = 0#4 ↔ ∀ k : Fin 4, m.getLsbD (8 + k.val) = false := by
  constructor
  · intro h k
    rw [← mixClipEn_getLsbD, h, BitVec.getLsbD_zero]
  · intro h
    apply BitVec.eq_of_getLsbD_eq
    intro i hi
    rw [mixClipEn_getLsbD m ⟨i, hi⟩, h, BitVec.getLsbD_zero]

/-- A plane passes where the column lies in its window, unless its effective invert bit is set (R242, R243). -/
theorem clipTest_eq (n : LineSnap) (m : Half) (k : Fin 4) (x : Nat) :
    clipTest n m k x = (decide (clipLeft n k ≤ (x : Int) ∧ (x : Int) ≤ clipRight n k) !=
      (m.getLsbD (4 + k.val) != m.getLsbD 12)) := by
  rw [clipTest, clipInvert_getLsbD, inside, Bool.decide_and, Bool.bne_eq_xor]

/-- The three ways to pass: no plane enabled, all enabled planes under AND, one of them under OR (R243). -/
theorem clipPass_iff (p : Params) (n : LineSnap) (l : Layer) (x : Nat) :
    clipPass p n l x = true ↔
      (mixClipEn (n.mix l) = 0#4 ∨
        (p.clipCombine = .all ∧ ∀ k ∈ clipPlanes (n.mix l), clipTest n (n.mix l) k x = true) ∨
        (p.clipCombine = .any ∧ ∃ k ∈ clipPlanes (n.mix l), clipTest n (n.mix l) k x = true)) := by
  rw [clipPass]
  by_cases hnone : mixClipEn (n.mix l) = 0#4
  · simp [hnone]
  · cases p.clipCombine <;> simp [hnone]

/-- Settles O49: `clipPass_iff`, with the enable bits and the test of a plane read from the mix word. -/
theorem clipPassCombinesTheEnabledPlanes : Obligations.ClipPassCombinesTheEnabledPlanes := by
  intro p n l x m test
  rw [clipPass_iff, mixClipEn_eq_zero_iff]
  simp only [mem_clipPlanes, clipTest_eq]
  rfl

/-! ### Mosaic -/

/-- A column shows the accumulator of the first column of its run (R250). -/
theorem finalAcc_eq (s : State) (y x : Nat) :
    finalAcc s y x = columnAcc s (latch s y) y (x - x % mosaicFactor (latch s y)) := rfl

/-- Two columns of one run show one accumulator. -/
theorem finalAcc_of_same_run {s : State} {y x x' : Nat}
    (h : x / mosaicFactor (latch s y) = x' / mosaicFactor (latch s y)) : finalAcc s y x = finalAcc s y x' := by
  rw [finalAcc_eq, finalAcc_eq, ← Nat.mul_div_self_eq_mod_sub_self, ← Nat.mul_div_self_eq_mod_sub_self, h]

/-- The colour of a column is its accumulator's, over the background and at the depth of the line (R251, R253, R254). -/
theorem lineColor_eq (s : State) (y x : Nat) :
    lineColor s y x = resolve s.par (finalAcc s y x) (latch s y).bgPal ((s.ctrl1[7]).getLsbD 0) := rfl

/-- Settles O50: colour and trace byte are functions of the accumulator that the run shows. -/
theorem mosaicReplicatesTheFirstColumn : Obligations.MosaicReplicatesTheFirstColumn := by
  intro s y x x' n
  have hn : mosaicFactor (latch s y) = n := mosaicFactor_latch s y
  refine ⟨?first, fun hrun => ?run, fun hone => ?unchanged⟩
  case first => rw [finalAcc_eq, hn]
  case run =>
    have hacc : finalAcc s y x = finalAcc s y x' := finalAcc_of_same_run (by rw [hn, hrun])
    exact ⟨by rw [lineColor_eq, lineColor_eq, hacc], congrArg priAlp hacc⟩
  case unchanged => rw [finalAcc_eq, hn, hone, Nat.mod_one, Nat.sub_zero]

/-! ### The background -/

/-- A column that no layer supplies stays empty (R275). -/
theorem columnAcc_of_unsupplied {s : State} {n : LineSnap} {y x : Nat} (h : ∀ l, supplies s n y x l = false) :
    columnAcc s n y x = Acc.empty := by
  have hnone : suppliers s n y x = [] := List.filter_eq_nil_iff.2 fun l _ => by simp [h l]
  rw [columnAcc_eq, hnone, List.foldl_nil]

/-- An empty column shows the background index (R251). -/
theorem resolve_empty (p : Params) (bg : Half) (depth : Bool) :
    resolve p Acc.empty bg depth = paletteColor p depth bg := rfl

/-- Settles O51: the accumulator of the run is empty. -/
theorem unsuppliedColumnShowsTheBackground : Obligations.UnsuppliedColumnShowsTheBackground := by
  intro s y x n h
  have hempty : finalAcc s y x = Acc.empty := columnAcc_of_unsupplied h
  refine ⟨?colour, ?trace⟩
  case colour =>
    rw [lineColor_eq, hempty, resolve_empty]
    rfl
  case trace =>
    rw [lineTrace, hempty]
    decide

/-! ### The trace byte -/

/-- The low nibble of the trace byte (R252). -/
theorem priAlp_getLsbD_low (a : Acc) {i : Nat} (hi : i < 4) :
    (priAlp a).getLsbD i = (a.has && a.prio.getLsbD i) := by
  rw [priAlp, BitVec.getLsbD_append, if_pos hi]
  cases a.has <;> simp

/-- The high nibble of the trace byte holds the flags of a column (R252). -/
theorem priAlp_getLsbD_high (a : Acc) (i : Nat) :
    (priAlp a).getLsbD (4 + i) =
      (BitVec.ofBool (!a.has) ++ 0#1 ++ BitVec.ofBool a.dst ++ BitVec.ofBool a.blended).getLsbD i := by
  rw [priAlp, BitVec.getLsbD_append, if_neg (by omega), Nat.add_sub_cancel_left]

theorem traceFlags_getLsbD : ∀ bg dst blended : Bool,
    let flags := BitVec.ofBool bg ++ 0#1 ++ BitVec.ofBool dst ++ BitVec.ofBool blended
    flags.getLsbD 0 = blended ∧ flags.getLsbD 1 = dst ∧ flags.getLsbD 2 = false ∧ flags.getLsbD 3 = bg := by
  decide

/-- Settles O52: the priority nibble, and above it the four flags. -/
theorem traceByteReportsTheAccumulator : Obligations.TraceByteReportsTheAccumulator := by
  intro a
  obtain ⟨hblended, hdst, hzero, hbg⟩ := traceFlags_getLsbD (!a.has) a.dst a.blended
  exact ⟨fun _ => priAlp_getLsbD_low a, (priAlp_getLsbD_high a 0).trans hblended,
    (priAlp_getLsbD_high a 1).trans hdst, (priAlp_getLsbD_high a 2).trans hzero,
    (priAlp_getLsbD_high a 3).trans hbg⟩

/-! ### The layer loop -/

/-- One layer's turn over the line is its turn at each column (R248). -/
theorem getElem?_mixLayer (s : State) (n : LineSnap) (y : Nat) (acc : List Acc) (l : Layer) (x : Nat) :
    (mixLayer s n y acc l)[x]? = acc[x]?.map (mixStep s n y x · l) := by
  rw [mixLayer]
  by_cases hl : layerEnabled n l = true
  · rw [if_pos hl, List.getElem?_mapIdx]
    simp only [mixStep, reaches, hl, Bool.true_and]
  · rw [if_neg hl]
    simp [mixStep, reaches, hl]

/-- So the loop over the line is the loop at each column. -/
theorem getElem?_foldl_mixLayer (s : State) (n : LineSnap) (y : Nat) (ls : List Layer) (acc : List Acc) (x : Nat) :
    (ls.foldl (mixLayer s n y) acc)[x]? = acc[x]?.map (ls.foldl (mixStep s n y x)) := by
  induction ls generalizing acc with
  | nil => simp
  | cons l ls ih => rw [List.foldl_cons, ih, getElem?_mixLayer, Option.map_map]; rfl

theorem getElem?_mixLine (s : State) (y x : Nat) :
    (mixLine s y)[x]? = if x < s.par.screenW then some (columnAcc s (latch s y) y x) else none := by
  rw [mixLine, getElem?_foldl_mixLayer, List.getElem?_replicate]
  split <;> rfl

theorem mixLine_getD {s : State} {y x : Nat} (hx : x < s.par.screenW) :
    (mixLine s y).getD x Acc.empty = columnAcc s (latch s y) y x := by
  rw [List.getD_eq_getElem?_getD, getElem?_mixLine, if_pos hx, Option.getD_some]

theorem length_mixLayer (s : State) (n : LineSnap) (y : Nat) (acc : List Acc) (l : Layer) :
    (mixLayer s n y acc l).length = acc.length := by
  rw [mixLayer]
  split
  · exact List.length_mapIdx
  · rfl

theorem length_mixLine (s : State) (y : Nat) : (mixLine s y).length = s.par.screenW :=
  foldl_keeps (P := fun acc => acc.length = s.par.screenW) (fun acc l _ h => (length_mixLayer _ _ _ acc l).trans h)
    List.length_replicate

/-- The accumulator that column `x` shows after the mosaic of the loop's line (R240, R250). -/
def shownAcc (s : State) (y x : Nat) : Acc :=
  (mixLine s y).getD (x - x % ((memRead s .lin (y * 128 + 6)).toNat % 16 + 1)) Acc.empty

theorem shownAcc_eq {s : State} {y x : Nat} (hx : x < s.par.screenW) : shownAcc s y x = finalAcc s y x := by
  rw [shownAcc, mixLine_getD (Nat.sub_lt_of_lt hx), finalAcc_eq, mosaicFactor_latch]

/-- The rows of a LINE, from the accumulators of the loop of R240. -/
theorem lineResult_eq (s : State) (y : Nat) :
    lineResult s y =
      .line ((List.range s.par.screenW).map
          (fun x => resolve s.par (shownAcc s y x) (latch s y).bgPal ((s.ctrl1[7]).getLsbD 0)))
        ((List.range s.par.screenW).map (fun x => priAlp (shownAcc s y x))) := by
  refine congrArg₂ Result.line (List.map_congr_left fun x hx => ?colour) (List.map_congr_left fun x hx => ?trace)
  case colour => rw [lineColor_eq, shownAcc_eq (List.mem_range.1 hx)]
  case trace => rw [lineTrace, shownAcc_eq (List.mem_range.1 hx)]

/-- A sprite group shows its own buffer, where a pixel of 0 is transparent (R247). -/
theorem sample_sp (s : State) (n : LineSnap) (g : Fin 4) (x y : Nat) :
    sample s n (.sp g) x y =
      { isOpaque := decide (sprAt s.sprbuf g.val y x ≠ 0#16)
        index := sprAt s.sprbuf g.val y x
        blendSel := false } := by
  simp [sample, bne, beq_eq_decide]

/-- Settles O43: the rows by the loop at each column, then the refusal, then the sources. -/
theorem lineReturnsItsRowsAndChangesOnlyTheCaches : Obligations.LineReturnsItsRowsAndChangesOnlyTheCaches := by
  intro s y
  refine ⟨fun hy => ?rows, fun hy => ?refused, fun n x => ?sources⟩
  case rows =>
    have hrun := exec_line_of_lt s hy
    rw [lineResult_eq] at hrun
    exact ⟨_, hrun, length_mixLine s y, rfl, congrArg (s.out ++ [·]) (lineResult_eq s y).symm,
      fun x hx => mixLine_getD hx⟩
  case refused => exact refusedCommand_of_not_inRange (decide_eq_false (Nat.not_lt.2 hy))
  case sources => exact ⟨fun _ => rfl, rfl, fun g => sample_sp s n g x y, fun _ => rfl⟩

end Sys2Proof.Machine
end

section
/-! SUPPORT. The mux of 45_pixel_priority_mux.md: the keys of the layer order (R270), the update of the top (R273) and
the top of a column among the layers that supply it (R276). -/

namespace Sys2Proof.Machine

/-! ### The layer order -/

/-- The priority of a layer, as a number of its mix word (R270). -/
theorem toNat_layerPrio (n : LineSnap) (l : Layer) : (layerPrio n l).toNat = (n.mix l).toNat % 16 := by
  rw [layerPrio, mixPrio, toNat_extractLsb', pow_zero, Nat.div_one]
  rfl

/-- The key `(PRIO, rank)` of `a` is strictly below that of `b` (R270). -/
def KeyLt (p : Params) (n : LineSnap) (a b : Layer) : Prop :=
  (layerPrio n a).toNat < (layerPrio n b).toNat ∨
    ((layerPrio n a).toNat = (layerPrio n b).toNat ∧ tieRank p a < tieRank p b)

/-- Different layers have different keys, because ranks tell layers apart (R270). -/
theorem keyLt_of_notAbove_of_ne {p : Params} (hp : p.Ok) {n : LineSnap} {a b : Layer} (h : notAbove p n a b = true)
    (hne : a ≠ b) : KeyLt p n a b := by
  have hrank : tieRank p a ≠ tieRank p b := fun he => hne (tieRank_inj hp he)
  rw [notAbove_iff] at h
  rw [KeyLt]
  omega

/-- The order ascends strictly: it ascends, and it holds each layer once. -/
theorem layerOrder_pairwise_keyLt {p : Params} (hp : p.Ok) (n : LineSnap) : (layerOrder p n).Pairwise (KeyLt p n) :=
  ((layerOrder_sorted p n).and (layerOrder_nodup p n)).imp fun ⟨h, hne⟩ => keyLt_of_notAbove_of_ne hp h hne

/-- The tie order ascends by rank, since a layer's rank is its place there. -/
theorem tieOrder_pairwise_rank {p : Params} (hp : p.Ok) :
    p.tieOrder.Pairwise (fun a b => tieRank p a < tieRank p b) := by
  have hnodup : p.tieOrder.Nodup := (List.isPerm_iff.1 hp.tieOrder).nodup_iff.2 (by decide)
  refine List.pairwise_iff_getElem.2 fun i j hi hj hij => ?_
  rwa [tieRank, tieRank, hnodup.idxOf_getElem i hi, hnodup.idxOf_getElem j hj]

/-- With equal priorities rank alone orders the layers. -/
theorem layerOrder_of_equal_prio {p : Params} (hp : p.Ok) {n : LineSnap}
    (h : ∀ a b, (layerPrio n a).toNat = (layerPrio n b).toNat) : layerOrder p n = p.tieOrder := by
  have hperm : (layerOrder p n).Perm p.tieOrder := (layerOrder_perm p n).trans (List.isPerm_iff.1 hp.tieOrder).symm
  have hsorted : p.tieOrder.Pairwise (fun a b => notAbove p n a b = true) :=
    (tieOrder_pairwise_rank hp).imp fun hlt => notAbove_iff.2 (.inr ⟨h _ _, hlt.le⟩)
  exact hperm.eq_of_pairwise (fun _ _ _ _ => notAbove_antisymm hp) (layerOrder_sorted p n) hsorted

/-- Settles O54: the strict order by keys, with the priority read from the mix word. -/
theorem layerOrderAscendsByPriorityAndTieOrder : Obligations.LayerOrderAscendsByPriorityAndTieOrder := by
  intro p n hp
  simp only [← toNat_layerPrio]
  exact ⟨layerOrder_perm p n, layerOrder_pairwise_keyLt hp n, layerOrder_of_equal_prio hp⟩

/-! ### The update of the top -/

/-- A pixel needs the source role (R285), and the old top must exist and have the destination role (R286, R287). -/
theorem blendsWith_iff {n : LineSnap} {a : Acc} {l : Layer} {px : Pixel} :
    blendsWith n a l px = true ↔
      (n.mix l).getLsbD 14 = true ∧ (l.kind ≠ .playfield ∨ px.blendSel = true) ∧ a.has = true ∧ a.dst = true := by
  simp [blendsWith, srcRole, mixBlendA, and_assoc]

/-- Settles O55: the roles say when the new top is blended; its other fields are the new pixel's and layer's. -/
theorem muxUpdateBlendsWithADestinationTop : Obligations.MuxUpdateBlendsWithADestinationTop := fun n _ l _ =>
  ⟨rfl, rfl, toNat_layerPrio n l, rfl, blendsWith_iff, rfl⟩

/-! ### The top of a column -/

/-- The accumulator of a column reports the top layer's pixel and priority (R272, R273). -/
theorem columnAcc_of_isTopLayer {s : State} {n : LineSnap} {y x : Nat} {top : Layer} (hp : s.par.Ok)
    (h : IsTopLayer s n y x top) :
    (columnAcc s n y x).has = true ∧ (columnAcc s n y x).idx = (sample s n top x y).index ∧
      (columnAcc s n y x).prio = layerPrio n top := by
  obtain ⟨ls, hls⟩ := suppliers_of_isTopLayer hp h
  rw [columnAcc_of_append hls]
  exact ⟨rfl, rfl, rfl⟩

/-- A layer that is not above another has at most its priority. -/
theorem layerPrio_le_of_notAbove {p : Params} {n : LineSnap} {a b : Layer} (h : notAbove p n a b = true) :
    (layerPrio n a).toNat ≤ (layerPrio n b).toNat := by
  rw [notAbove_iff] at h
  omega

/-- A column that starts a run shows its own accumulator (R250). -/
theorem finalAcc_of_run_start {s : State} {y x : Nat} (h : x % mosaicFactor (latch s y) = 0) :
    finalAcc s y x = columnAcc s (latch s y) y x := by
  rw [finalAcc_eq, h, Nat.sub_zero]

/-- Settles O57: the top of the column has at least the higher of the two priorities. -/
theorem lowerPriorityLayerIsNeverTheTop : Obligations.LowerPriorityLayerIsNeverTheTop := by
  intro s y x l1 l2 hp n h1 h2 hlt
  obtain ⟨top, htop⟩ := exists_isTopLayer h2
  obtain ⟨hhas, hidx, hprio⟩ := columnAcc_of_isTopLayer hp htop
  obtain ⟨hsupplies, hhighest⟩ := htop
  have hne : top ≠ l1 := by
    rintro rfl
    have hle := layerPrio_le_of_notAbove (hhighest l2 h2)
    omega
  exact ⟨top, hne, hsupplies, hhighest l2 h2, hhas, hidx, hprio, finalAcc_of_run_start⟩

end Sys2Proof.Machine
end

section
/-! SUPPORT. The blender of 46_alpha_blender_2op.md: the blend equation (R289, R290), the resolve of a column (R291) and
the two layers that a column shows (R292). -/

namespace Sys2Proof.Machine

/-! ### The blend equation -/

/-- A channel saturates at 255, so its eight bits hold the whole sum in eighths (R289). -/
theorem toNat_blendChannel (ks kd : Nat) (t d : Byte) :
    (blendChannel ks kd t d).toNat = min 255 ((t.toNat * ks + d.toNat * kd) / 8) := by
  rw [blendChannel, Nat.shiftRight_eq_div_pow, BitVec.toNat_ofNat]
  exact Nat.mod_eq_of_lt (by omega)

/-- With the default weights a channel is the floor of the operands' average, which never saturates (R290). -/
theorem toNat_blendChannel_default (t d : Byte) : (blendChannel 4 4 t d).toNat = (t.toNat + d.toNat) / 2 := by
  have ht := t.isLt
  have hd := d.isLt
  rw [toNat_blendChannel]
  omega

/-- Settles O59: the equation of a channel, for each of the three. -/
theorem blendIsTheWeightedSumInEighths : Obligations.BlendIsTheWeightedSumInEighths := by
  refine ⟨fun p t d => ?general, fun p t d hks hkd => ?default⟩
  case general =>
    exact ⟨toNat_blendChannel _ _ t.r d.r, toNat_blendChannel _ _ t.g d.g, toNat_blendChannel _ _ t.b d.b⟩
  case default =>
    rw [blend, hks, hkd]
    exact ⟨toNat_blendChannel_default t.r d.r, toNat_blendChannel_default t.g d.g,
      toNat_blendChannel_default t.b d.b⟩

/-! ### Resolve -/

/-- The three cases of R291: the background of an empty column, an unblended top, a blended one. -/
theorem resolve_eq (p : Params) (a : Acc) (bg : Half) (depth : Bool) :
    resolve p a bg depth =
      if a.has = false then paletteColor p depth bg
      else if a.blended = false then paletteColor p depth a.idx
      else blend p (paletteColor p depth a.idx) (paletteColor p depth a.below) := by
  rw [resolve]
  cases a.has with
  | false => rfl
  | true => cases a.blended <;> rfl

/-- Settles O58: the resolve of the shown accumulator, over the line's background index. -/
theorem columnColourResolvesItsAccumulator : Obligations.ColumnColourResolvesItsAccumulator := by
  intro s y x a c
  have hc : ∀ i : Half, paletteColor s.par ((s.ctrl1[7]).getLsbD 0) i = c i.toNat := fun _ => rfl
  have hbg : (latch s y).bgPal = memRead s .lin (y * 128 + 7) := lineWord_eq s y 0x07
  rw [lineColor_eq, resolve_eq, hbg, hc, hc, hc]

/-! ### The two layers that a column shows -/

/-- A blend needs the source role of the new pixel and an old top with the destination role (R287). -/
theorem blendsWith_iff_roles {n : LineSnap} {a : Acc} {l : Layer} {px : Pixel} :
    blendsWith n a l px = true ↔ srcRole n l px = true ∧ a.has = true ∧ a.dst = true := by
  simp [blendsWith, and_assoc]

/-- A blended top keeps the index of the old top (R274). -/
theorem muxUpdate_below_of_blended {n : LineSnap} {a : Acc} {l : Layer} {px : Pixel}
    (h : (muxUpdate n a l px).blended = true) : (muxUpdate n a l px).below = a.idx := if_pos h

section
variable {s : State} {n : LineSnap} {y x : Nat} {ls : List Layer} {top under : Layer}

/-- The last but one of the supplying layers is the layer directly under the top: the others are overdrawn before it. -/
theorem isUnderLayer_of_suppliers (h : suppliers s n y x = (ls ++ [under]) ++ [top]) :
    IsUnderLayer s n y x top under := by
  have hmem : ∀ l, supplies s n y x l = true ↔ l ∈ ls ++ [under] ∨ l = top := fun l => by
    rw [← mem_suppliers, h, List.mem_append, List.mem_singleton]
  have hnodup := suppliers_nodup s n y x
  have hsorted := suppliers_sorted s n y x
  rw [h] at hnodup hsorted
  obtain ⟨-, -, hdisjoint⟩ := List.nodup_append.1 hnodup
  obtain ⟨hsorted, -, -⟩ := List.pairwise_append.1 hsorted
  obtain ⟨-, -, hbefore⟩ := List.pairwise_append.1 hsorted
  have hunder : under ∈ ls ++ [under] := List.mem_append_right _ (List.mem_singleton_self under)
  refine ⟨(hmem under).2 (.inl hunder), hdisjoint under hunder top (List.mem_singleton_self top), fun l hl hne => ?_⟩
  rcases List.mem_append.1 (((hmem l).1 hl).resolve_right hne) with hl | hl
  · exact hbefore l hl under (List.mem_singleton_self under)
  · rw [List.mem_singleton.1 hl]
    exact or_self_iff.1 (notAbove_total s.par n under under)

/-- Before its top is drawn, the accumulator of a column is the update by the layer under the top. -/
theorem foldl_supply_of_isUnderLayer (hp : s.par.Ok) (hls : suppliers s n y x = ls ++ [top])
    (h : IsUnderLayer s n y x top under) :
    ∃ a, ls.foldl (supply s n y x) Acc.empty = muxUpdate n a under (sample s n under x y) := by
  obtain ⟨ms, rfl⟩ := suppliers_of_isUnderLayer hp hls h
  exact ⟨ms.foldl (supply s n y x) Acc.empty, List.foldl_append⟩

/-- So the top is drawn over a destination pixel exactly when the layer under it has the destination role: with no such
layer the accumulator is still empty. -/
theorem foldl_supply_dst_iff (hp : s.par.Ok) (hls : suppliers s n y x = ls ++ [top]) :
    ((ls.foldl (supply s n y x) Acc.empty).has = true ∧ (ls.foldl (supply s n y x) Acc.empty).dst = true) ↔
      ∃ under, IsUnderLayer s n y x top under ∧ dstRole n under = true := by
  constructor
  · rintro ⟨hhas, hdst⟩
    rcases List.eq_nil_or_concat' ls with rfl | ⟨ms, under, rfl⟩
    · exact absurd hhas Bool.false_ne_true
    · rw [List.foldl_append] at hdst
      exact ⟨under, isUnderLayer_of_suppliers hls, hdst⟩
  · rintro ⟨under, hunder, hdst⟩
    obtain ⟨a, ha⟩ := foldl_supply_of_isUnderLayer hp hls hunder
    rw [ha]
    exact ⟨rfl, hdst⟩

end

/-- Settles O56: the column is the update by its top over the accumulator that the layer under it left. -/
theorem columnShowsTheHighestSupplyingLayer : Obligations.ColumnShowsTheHighestSupplyingLayer := by
  intro s n y x hp
  refine ⟨columnAcc_of_unsupplied, fun top htop => ?_⟩
  obtain ⟨ls, hls⟩ := suppliers_of_isTopLayer hp htop
  rw [columnAcc_of_append hls]
  refine ⟨rfl, rfl, rfl, rfl, ?blended, fun under hunder hblended => ?below⟩
  case blended => exact blendsWith_iff_roles.trans (and_congr_right' (foldl_supply_dst_iff hp hls))
  case below =>
    obtain ⟨a, ha⟩ := foldl_supply_of_isUnderLayer hp hls hunder
    rw [muxUpdate_below_of_blended hblended, ha]
    rfl

end Sys2Proof.Machine
end

section
/-! SUPPORT. The exceptions of 60_exceptions.md: the mark takes the reason of a refusal and keeps the first one (R301,
R304), words inside the interface (R169) leave it, and a run returns the values of its words in order (R314). -/

namespace Sys2Proof.Machine

/-! ### The refusal mark -/

/-- Settles O10: a command by its value check, a word by the decoder, which comes first. -/
theorem markRecordsTheFirstReason : Obligations.MarkRecordsTheFirstReason :=
  ⟨fun _ _ hr => exec_of_not_inRange hr, fun _ _ _ hs hd => step_of_illegal hs hd⟩

/-- A step keeps a set mark: an illegal word adds no second reason, and no command changes it. -/
theorem step_mark_of_some {s t : State} {m : Reason} (h : step s = .next t) (hm : s.mark = some m) :
    t.mark = some m := by
  obtain ⟨-, rfl⟩ | ⟨_, _, _, _, rfl⟩ | ⟨_, _, _, _, _, hx⟩ := step_cases h
  · exact hm
  · simp [hm]
  · exact exec_mark hx hm

/-- Settles O11, by induction on the run. -/
theorem setMarkIsKept : Obligations.SetMarkIsKept := by
  intro s t m h
  refine run_induction (P := fun s t => s.mark = some m → t.mark = some m) (fun _ _ => id) ?_ s t h
  intro s u t w rest _ hu _ ih hm
  exact ih (step_mark_of_some hu hm)

theorem exists_decode_of_wordAccepted {visH : Nat} {w : Word} (h : wordAccepted visH w = true) :
    ∃ i, decode w = .ok i ∧ i.inRange visH = true := by
  cases hd : decode w with
  | error e => simp [wordAccepted, hd] at h
  | ok i => exact ⟨i, rfl, by simpa [wordAccepted, hd] using h⟩

/-- A step that takes a word inside the interface leaves the mark, clear or set. -/
theorem step_mark_of_wordAccepted {s t : State} {w : Word} {rest : List Word} (hs : s.stream = w :: rest)
    (hw : wordAccepted s.par.visH w = true) (h : step s = .next t) : t.mark = s.mark := by
  obtain ⟨i, hd, hr⟩ := exists_decode_of_wordAccepted hw
  rw [step_of_decode hs hd] at h
  exact exec_mark_of_inRange (s := { s with stream := rest }) hr h

/-- So does a run of such words: each step leaves `P_VIS_H` too, so the rest of the words stays inside the interface. -/
theorem run_mark_of_wordAccepted {s t : State} (h : s.run = .next t) :
    (∀ w ∈ s.stream, wordAccepted s.par.visH w = true) → t.mark = s.mark := by
  refine run_induction (P := fun s t => (∀ w ∈ s.stream, wordAccepted s.par.visH w = true) → t.mark = s.mark)
    (fun _ _ _ => rfl) ?_ s t h
  intro s u t w rest hs hu hus ih hall
  rw [hs, List.forall_mem_cons] at hall
  obtain ⟨hw, hrest⟩ := hall
  have hu_rest : ∀ w ∈ u.stream, wordAccepted u.par.visH w = true := by
    rwa [hus, noCommandChangesTheParameters s u hu]
  exact (ih hu_rest).trans (step_mark_of_wordAccepted hs hw hu)

/-- Settles O12: the run leaves the mark, so a clear one stays clear. -/
theorem acceptedRunLeavesTheMarkClear : Obligations.AcceptedRunLeavesTheMarkClear :=
  fun _ _ hm hall h => (run_mark_of_wordAccepted h hall).trans hm

/-! ### The values a run returns -/

@[simp] theorem writeInstr_resultShape (p : Params) (r : Region) (a : Nat) (v : Half) (ln : BitVec 2) :
    (writeInstr r a v ln).resultShape p = none := by
  cases r <;> rfl

@[simp] theorem readInstr_resultShape (p : Params) (r : Region) (a : Nat) :
    (readInstr r a).resultShape p = some .half := by
  cases r <;> rfl

/-- The rows of a LINE are `P_SCREEN_W` wide (R240). -/
@[simp] theorem lineResult_shape (s : State) (y : Nat) :
    (lineResult s y).shape = .line s.par.screenW s.par.screenW := by
  simp [lineResult, Result.shape]

/-- A command inside the interface returns the one value of its kind, or none. -/
theorem exec_out_of_inRange {i : Instr} {s t : State} (hr : i.inRange s.par.visH = true) (h : exec i s = .next t) :
    t.out.map Result.shape = s.out.map Result.shape ++ (i.resultShape s.par).toList := by
  cases effect_of_exec h with
  | refused _ hf => rw [hf] at hr; cases hr
  | write r a v ln _ => simp
  | read r a _ => simp [Result.shape]
  | crd0 k | crd1 k => simp [Result.shape, Instr.resultShape]
  | line y _ => simp [Instr.resultShape]
  | nop | cwr0 | cwr1 | frame | reset => exact (List.append_nil _).symm

/-- A refused command returns nothing (R301). -/
theorem exec_out {i : Instr} {s t : State} (h : exec i s = .next t) :
    t.out.map Result.shape =
      s.out.map Result.shape ++ (if i.inRange s.par.visH then i.resultShape s.par else none).toList := by
  cases hr : i.inRange s.par.visH with
  | true => exact exec_out_of_inRange hr h
  | false =>
    rw [exec_of_not_inRange hr] at h
    cases h
    exact (List.append_nil _).symm

theorem wordResultShape_of_decode {p : Params} {w : Word} {i : Instr} (hd : decode w = .ok i) :
    wordResultShape p w = if i.inRange p.visH then i.resultShape p else none := by
  rw [wordResultShape, hd]

theorem wordResultShape_of_illegal {p : Params} {w : Word} {e : DecodeReject} (hd : decode w = .error e) :
    wordResultShape p w = none := by
  rw [wordResultShape, hd]

/-- A word that is taken returns what `wordResultShape` says of it, after what was returned before. -/
theorem step_out {s t : State} {w : Word} {rest : List Word} (hs : s.stream = w :: rest) (h : step s = .next t) :
    t.out.map Result.shape = s.out.map Result.shape ++ (wordResultShape s.par w).toList := by
  cases hd : decode w with
  | error e =>
    rw [step_of_illegal hs hd] at h
    cases h
    rw [wordResultShape_of_illegal hd]
    exact (List.append_nil _).symm
  | ok i =>
    rw [step_of_decode hs hd] at h
    rw [wordResultShape_of_decode hd]
    exact exec_out (s := { s with stream := rest }) h

/-- Settles O8, by induction on the run: the values of the first word come before those of the rest. -/
theorem runReturnsOneValuePerReadAndLine : Obligations.RunReturnsOneValuePerReadAndLine := by
  refine run_induction (fun s hs => ?_) fun s u t w rest hs hu hus ih => ?_
  · simp [hs]
  · rw [hus, noCommandChangesTheParameters s u hu, step_out hs hu] at ih
    rw [ih, hs, List.append_assoc]
    cases hw : wordResultShape s.par w <;> simp [hw]

end Sys2Proof.Machine
end

section
/-! SUPPORT. Reset and hazards of 70_reset_and_hazards.md: the end of every run (R330), the sprite lag
(R323), the FRAME that replaces the buffer draws (R322), the decode of a text write (R326), and the power-on state (R320). -/

namespace Sys2Proof.Machine

/-! ### Every run ends (R330) -/

/-- Every step gives a next state: a waiting command is taken, and with none waiting the state is held. -/
theorem exists_step (s : State) : ∃ t, step s = .next t := by
  cases hs : s.stream with
  | nil => exact ⟨s, step_of_idle hs⟩
  | cons w rest =>
    obtain ⟨t, ht, -⟩ := step_total hs
    exact ⟨t, ht⟩

/-- A run ends with its stream taken, by induction on the stream: each step takes one word of it. -/
theorem run_ends (ws : List Word) : ∀ s : State, s.stream = ws → ∃ t, s.run = .next t ∧ t.stream = [] := by
  induction ws with
  | nil => exact fun s hs => ⟨s, run_nil hs, hs⟩
  | cons w rest ih =>
    intro s hs
    obtain ⟨u, hu, hus, -⟩ := step_total hs
    rw [run_cons hs hu]
    exact ih u hus

/-- Settles O7: a run takes its own stream, and a step needs no waiting command. -/
theorem everyRunEnds : Obligations.EveryRunEnds :=
  ⟨fun s => run_ends s.stream s rfl, exists_step⟩

/-! ### Words that are not of one command -/

theorem ne_frame_of_isFrameWord {w : Word} {i : Instr} (hd : decode w = .ok i) (h : isFrameWord w = false) :
    i ≠ .frame := by
  rintro rfl
  simp [isFrameWord, hd] at h

theorem ne_line_of_isLineWord {w : Word} {i : Instr} (hd : decode w = .ok i) (h : isLineWord w = false) (y : Nat) :
    i ≠ .line y := by
  rintro rfl
  simp [isLineWord, hd] at h

theorem ne_rdspr_of_isRdsprWord {w : Word} {i : Instr} (hd : decode w = .ok i) (h : isRdsprWord w = false)
    (a : Nat) : i ≠ .rdspr a := by
  rintro rfl
  simp [isRdsprWord, hd] at h

theorem decode_of_isFrameWord {w : Word} (h : isFrameWord w = true) : decode w = .ok .frame := by
  unfold isFrameWord at h
  split at h
  · assumption
  · cases h

theorem frameBeforeLines_cons {w : Word} {rest : List Word} :
    frameBeforeLines (w :: rest) = true ↔
      isFrameWord w = true ∨ isLineWord w = false ∧ frameBeforeLines rest = true := by
  simp [frameBeforeLines]

/-! ### The sprite lag (R323) -/

/-- A region write changes the same bytes whatever sprite RAM holds, but for those of sprite RAM itself. -/
theorem write_setMem_spr (s : State) (m : Memory) (r : Region) (a : Nat) (v : Half) (ln : BitVec 2) :
    ∃ m', ({ memWrite (s.setMem .spr m) r a v ln with cache := markDirty s.cache r a } : State) =
      State.setMem { memWrite s r a v ln with cache := markDirty s.cache r a } .spr m' := by
  cases r with
  | spr => exact ⟨writeHalf m a (laneMerge (readHalf m a) v ln), rfl⟩
  | pf | txt | chr | lin | piv => exact ⟨m, rfl⟩

theorem memRead_setMem_ne (s : State) {r r' : Region} (m : Memory) (a : Nat) (h : r' ≠ r) :
    memRead (s.setMem r m) r' a = memRead s r' a := by
  rw [memRead, State.mem_setMem_ne s m h, memRead]

/-- Besides FRAME only RDSPR reads sprite RAM: any other command has the same effect whatever it holds, but for the
sprite RAM itself. -/
theorem Effect.setMem_spr {i : Instr} {s t : State} (h : Effect s i t) (hframe : i ≠ .frame)
    (hread : ∀ a, i ≠ .rdspr a) (m : Memory) : ∃ m', Effect (s.setMem .spr m) i (t.setMem .spr m') := by
  cases h with
  | refused _ hr => exact ⟨m, .refused i hr⟩
  | nop => exact ⟨m, .nop⟩
  | write r a v ln ha =>
    obtain ⟨m', hm'⟩ := write_setMem_spr s m r a v ln
    refine ⟨m', ?_⟩
    rw [← hm']
    exact .write r a v ln ha
  | read r a ha =>
    have hr : r ≠ .spr := fun e => hread a (e ▸ rfl)
    refine ⟨m, ?_⟩
    rw [← memRead_setMem_ne s m a hr]
    exact .read r a ha
  | cwr0 k v ln => exact ⟨m, .cwr0 k v ln⟩
  | cwr1 k v ln => exact ⟨m, .cwr1 k v ln⟩
  | crd0 k => exact ⟨m, .crd0 k⟩
  | crd1 k => exact ⟨m, .crd1 k⟩
  | frame => exact absurd rfl hframe
  | line y hy => exact ⟨m, .line y hy⟩
  | reset => exact ⟨m, .reset⟩

/-- A step of a word that is neither FRAME nor RDSPR takes states that differ in sprite RAM alone to such states. -/
theorem step_setMem_spr {s t : State} {w : Word} {rest : List Word} (hs : s.stream = w :: rest)
    (hframe : isFrameWord w = false) (hread : isRdsprWord w = false) (h : step s = .next t) (m : Memory) :
    ∃ m', step (s.setMem .spr m) = .next (t.setMem .spr m') := by
  have hs' : (s.setMem .spr m).stream = w :: rest := hs
  cases hd : decode w with
  | error e =>
    rw [step_of_illegal hs hd] at h
    cases h
    exact ⟨m, step_of_illegal hs' hd⟩
  | ok i =>
    rw [step_of_decode hs hd] at h
    obtain ⟨m', he⟩ := (effect_of_exec h).setMem_spr (ne_frame_of_isFrameWord hd hframe)
      (ne_rdspr_of_isRdsprWord hd hread) m
    exact ⟨m', (step_of_decode hs' hd).trans (exec_of_effect he)⟩

/-- So does a run of such words. -/
theorem run_setMem_spr {s t : State} (h : s.run = .next t) :
    (∀ w ∈ s.stream, isFrameWord w = false ∧ isRdsprWord w = false) →
      ∀ m, ∃ m', (s.setMem .spr m).run = .next (t.setMem .spr m') := by
  refine run_induction (P := fun s t => (∀ w ∈ s.stream, isFrameWord w = false ∧ isRdsprWord w = false) →
      ∀ m, ∃ m', (s.setMem .spr m).run = .next (t.setMem .spr m'))
    (fun s hs _ m => ⟨m, run_nil hs⟩) (fun s u t w rest hs hu hus ih hall m => ?_) s t h
  rw [hs, List.forall_mem_cons] at hall
  obtain ⟨⟨hframe, hread⟩, hrest⟩ := hall
  obtain ⟨m₁, hstep⟩ := step_setMem_spr hs hframe hread hu m
  obtain ⟨m₂, hrun⟩ := ih (by rwa [hus]) m₁
  exact ⟨m₂, (run_cons (s := s.setMem .spr m) hs hstep).trans hrun⟩

/-- Settles O42: a run of the words from the other sprite RAM ends in the same state but for sprite RAM, so with the
same returned values. -/
theorem spriteRamIsNotShownBeforeAFrame : Obligations.SpriteRamIsNotShownBeforeAFrame := by
  intro s t t' m hall h h'
  obtain ⟨m', hm'⟩ := run_setMem_spr h hall m
  have ht : t' = t.setMem .spr m' := Host.Outcome.next.inj (h'.symm.trans hm')
  rw [ht, State.setMem_out]

/-! ### The draws of the sprite buffers (R322) -/

/-- The state with other sprite group buffers and usage masks. -/
def State.withBuffers (s : State) (b : List (Nat × Half)) (u : List (Nat × Byte)) : State :=
  { s with sprbuf := b, usage := u }

/-- Besides LINE no command reads the group buffers or the usage masks, and besides FRAME none writes them. -/
theorem Effect.withBuffers {i : Instr} {s t : State} (h : Effect s i t) (hframe : i ≠ .frame)
    (hline : ∀ y, i ≠ .line y) (b : List (Nat × Half)) (u : List (Nat × Byte)) :
    Effect (s.withBuffers b u) i (t.withBuffers b u) := by
  cases h with
  | refused _ hr => exact .refused i hr
  | nop => exact .nop
  | write r a v ln ha => cases r <;> exact .write _ a v ln ha
  | read r a ha => cases r <;> exact .read _ a ha
  | cwr0 k v ln => exact .cwr0 k v ln
  | cwr1 k v ln => exact .cwr1 k v ln
  | crd0 k => exact .crd0 k
  | crd1 k => exact .crd1 k
  | frame => exact absurd rfl hframe
  | line y _ => exact absurd rfl (hline y)
  | reset => exact .reset

/-- FRAME gives the same state whatever the buffers and masks held: it draws both anew (R210). -/
theorem exec_frame_withBuffers (s : State) (b : List (Nat × Half)) (u : List (Nat × Byte)) :
    exec .frame (s.withBuffers b u) = exec .frame s := rfl

/-- The states of two runs that began with other buffers and masks: after a FRAME they are one state, and before it they
differ in the buffers and masks alone and no LINE is due. -/
def BuffersPending (ws : List Word) (s t : State) : Prop :=
  t = s ∨ frameBeforeLines ws = true ∧ ∃ b u, t = s.withBuffers b u

/-- A step carries the relation on: FRAME makes the two states one, and a word that is neither FRAME nor LINE leaves
the difference as it is. -/
theorem step_buffersPending {w : Word} {rest : List Word} {s t s' t' : State} (hs : s.stream = w :: rest)
    (ht : t.stream = w :: rest) (h : BuffersPending (w :: rest) s t) (hs' : step s = .next s')
    (ht' : step t = .next t') : BuffersPending rest s' t' := by
  obtain rfl | ⟨hpending, b, u, rfl⟩ := h
  · exact .inl (Host.Outcome.next.inj (ht'.symm.trans hs'))
  cases hw : isFrameWord w with
  | true =>
    have hd := decode_of_isFrameWord hw
    rw [step_of_decode hs hd] at hs'
    rw [step_of_decode ht hd] at ht'
    have hsame := exec_frame_withBuffers { s with stream := rest } b u
    exact .inl (Host.Outcome.next.inj (ht'.symm.trans (hsame.trans hs')))
  | false =>
    obtain ⟨hline, hrest⟩ := (frameBeforeLines_cons.1 hpending).resolve_left (by simp [hw])
    refine .inr ⟨hrest, b, u, Host.Outcome.next.inj (ht'.symm.trans ?_)⟩
    cases hd : decode w with
    | error e =>
      rw [step_of_illegal hs hd] at hs'
      cases hs'
      exact step_of_illegal ht hd
    | ok i =>
      rw [step_of_decode hs hd] at hs'
      have he := (effect_of_exec hs').withBuffers (ne_frame_of_isFrameWord hd hw) (ne_line_of_isLineWord hd hline) b u
      exact (step_of_decode ht hd).trans (exec_of_effect he)

/-- Settles O46: at the ends of the two runs the states are one, or differ in the buffers and masks alone. -/
theorem linesAfterAFrameIgnoreTheBufferDraws : Obligations.LinesAfterAFrameIgnoreTheBufferDraws := by
  intro p d b u ws t t' hws h h'
  have hend : BuffersPending [] t t' :=
    run_relation (R := BuffersPending) (fun _ _ _ _ _ _ => step_buffersPending) ws _ _ t t' rfl rfl
      (.inr ⟨hws, b, u, rfl⟩) h h'
  obtain rfl | ⟨-, b', u', rfl⟩ := hend <;> rfl

/-- Two power-on states with other buffer draws, and one stream of a FRAME and a LINE, meet the premises of
`LinesAfterAFrameIgnoreTheBufferDraws`. -/
theorem frameThenLine_meets_the_premises :
    let ws : List Word := [0x5000000000000000#64, 0x6000000000000000#64]
    let s (d : Draws) : State := { State.powerOn Params.defaults d with stream := ws }
    frameBeforeLines ws = true ∧ ws.any isLineWord = true ∧ (∃ t, (s Draws.zero).run = .next t) ∧
      ∃ t, (s { Draws.zero with sprbuf := [(0, 1#16)], usage := [(0, 1#8)] }).run = .next t := by
  exact ⟨by decide, by decide, (run_ends _ _ rfl).imp fun _ => And.left, (run_ends _ _ rfl).imp fun _ => And.left⟩

/-! ### A text write and the next sample (R326) -/

/-- A write of both lanes to text RAM is what the text RAM then reads there. -/
theorem exec_wrtxt_reads_back {a : Nat} (v : Half) (s : State) (ha : a < Region.txt.size) :
    ∃ t, exec (.wrtxt a v 3#2) s = .next t ∧ memRead t .txt a = v ∧ t.chr = s.chr ∧ t.par = s.par := by
  refine ⟨_, exec_writeInstr_of_lt (r := .txt) v 3#2 s ha, ?_, rfl, rfl⟩
  rw [memRead_with_cache, memRead_memWrite, if_pos ⟨rfl, rfl⟩, laneMerge_both]

/-- Settles O35: the text layer's pixel is that of the word read back, and its pens are those of the same char RAM. -/
theorem nextSampleSeesTheTextWrite : Obligations.NextSampleSeesTheTextWrite := by
  intro s v x y
  obtain ⟨t, ht, hread, hchr, hpar⟩ := exec_wrtxt_reads_back v s (textAddr_lt x y)
  obtain ⟨hopaque, hindex, -⟩ := textPixelDecodesItsCell t x y
  rw [textAddr] at hread
  simp only [hread, charPen, hchr, hpar] at hopaque hindex
  exact ⟨t, ht, hopaque, hindex⟩

/-! ### Power-on (R320) -/

/-- Settles O24: a replicated bank reads 0 everywhere, and caches that list nothing are dirty everywhere. -/
theorem powerOnStateIsAsTabled : Obligations.PowerOnStateIsAsTabled := fun _ _ =>
  ⟨rfl, rfl, rfl, rfl, rfl, rfl, rfl, fun i => ⟨bankRead_replicate 0#16 i, bankRead_replicate 0#16 i⟩, rfl, rfl, rfl,
    fun _ => ⟨rfl, rfl, rfl, rfl, rfl⟩, rfl, rfl, rfl⟩

/-- The defaults of R7, with the values of log entry 2, are in the parameters' ranges. -/
theorem paramsDefaults_ok : Params.defaults.Ok where
  screenW_pos := by decide
  screenW_le := by decide
  visH_pos := by decide
  visH_le := by decide
  tieOrder := by decide
  blendKs := by decide
  blendKd := by decide
  charPacking := rfl
  pfLo := Sparse.canonical_nil _ _
  pfHi := Sparse.canonical_nil _ _
  sprLo := Sparse.canonical_nil _ _
  sprHi := Sparse.canonical_nil _ _
  palette := Sparse.canonical_nil _ _

/-- Draws with nothing listed (log entry 3) are contents of the regions, buffers and masks. -/
theorem drawsZero_ok (p : Params) : Draws.zero.Ok p where
  spr := Memory.wf_nil _
  pf := Memory.wf_nil _
  txt := Memory.wf_nil _
  chr := Memory.wf_nil _
  lin := Memory.wf_nil _
  piv := Memory.wf_nil _
  sprbuf := Sparse.canonical_nil _ _
  sprbufColumns := fun _ he => absurd he List.not_mem_nil
  usage := Sparse.canonical_nil _ _

/-- At power-on the regions, buffers and masks are the draws, and the displayed list and the caches list nothing. -/
theorem powerOn_inv {p : Params} {d : Draws} (hp : p.Ok) (hd : d.Ok p) : (State.powerOn p d).Inv where
  par := hp
  spr := hd.spr
  pf := hd.pf
  txt := hd.txt
  chr := hd.chr
  lin := hd.lin
  piv := hd.piv
  sprbuf := hd.sprbuf
  sprbufColumns := hd.sprbufColumns
  usage := hd.usage
  shownLength := Nat.zero_le _
  shownScales := fun _ he => absurd he List.not_mem_nil
  cacheSorted := rfl
  cacheCoherent := Caches.allDirty_coherent (State.powerOn p d)

/-- Settles O25: `State.reset` is the power-on state of the default parameters and the empty draws. -/
theorem powerOnMeetsTheInvariant : Obligations.PowerOnMeetsTheInvariant :=
  ⟨fun _ _ => powerOn_inv, powerOn_inv paramsDefaults_ok (drawsZero_ok _)⟩

end Sys2Proof.Machine
end
